-- ==== Sys2Proof/Word.lean ====
section
/-! DEFINITION. The widths of the machine: bytes, 16-bit words, 12-bit addresses, register and nibble
numbers (spec 00_scope.md R8 to R10). Every value is unsigned. -/

namespace Sys2Proof

/-- A register V0..VF, a memory byte, a timer or an immediate kk: 8 bits (10_state.md R16, R24, R25). -/
abbrev Byte := BitVec 8

/-- An opcode, pc, I or a stack entry: 16 bits (10_state.md R18, R19, R23). -/
abbrev Word := BitVec 16

/-- The 12-bit address field nnn of an opcode (30_encoding.md R55). -/
abbrev Addr := BitVec 12

/-- The number of a general register, 0..15 (10_state.md R16); 15 is VF. -/
abbrev Reg := Fin 16

/-- The number of a key of the keypad, 0..15 (10_state.md R27). -/
abbrev Key := Fin 16

/-- The flag register VF, register 15 (10_state.md R17). -/
abbrev VF : Reg := 15

end Sys2Proof
end

