-- ==== Sys2Proof/Syntax.lean ====
section
/-! DEFINITION. The instruction set: one constructor for each of the 35 rows of spec/opcode_table.json
(30_encoding.md R64), in the table's order, with the fields the row names. -/

namespace Sys2Proof

/-- The 35 CHIP-8 instructions (00_scope.md R2, 30_encoding.md R64). -/
inductive Instr where
  /-- 00E0 CLS, R112. -/
  | cls
  /-- 00EE RET, R84. -/
  | ret
  /-- 0nnn SYS nnn, except 00E0 and 00EE, R81. -/
  | sys (nnn : Addr)
  /-- 1nnn JP nnn, R82. -/
  | jp (nnn : Addr)
  /-- 2nnn CALL nnn, R83. -/
  | call (nnn : Addr)
  /-- 3xkk SE Vx, kk, R86. -/
  | seImm (x : Reg) (kk : Byte)
  /-- 4xkk SNE Vx, kk, R87. -/
  | sneImm (x : Reg) (kk : Byte)
  /-- 5xy0 SE Vx, Vy, R88. -/
  | seReg (x y : Reg)
  /-- 6xkk LD Vx, kk, R92. -/
  | ldImm (x : Reg) (kk : Byte)
  /-- 7xkk ADD Vx, kk, R93. -/
  | addImm (x : Reg) (kk : Byte)
  /-- 8xy0 LD Vx, Vy, R94. -/
  | ldReg (x y : Reg)
  /-- 8xy1 OR Vx, Vy, R95. -/
  | orReg (x y : Reg)
  /-- 8xy2 AND Vx, Vy, R96. -/
  | andReg (x y : Reg)
  /-- 8xy3 XOR Vx, Vy, R97. -/
  | xorReg (x y : Reg)
  /-- 8xy4 ADD Vx, Vy, R98. -/
  | addReg (x y : Reg)
  /-- 8xy5 SUB Vx, Vy, R99. -/
  | sub (x y : Reg)
  /-- 8xy6 SHR Vx {, Vy}, R100; y is kept but ignored (R68). -/
  | shr (x y : Reg)
  /-- 8xy7 SUBN Vx, Vy, R101. -/
  | subn (x y : Reg)
  /-- 8xyE SHL Vx {, Vy}, R102; y is kept but ignored (R68). -/
  | shl (x y : Reg)
  /-- 9xy0 SNE Vx, Vy, R89. -/
  | sneReg (x y : Reg)
  /-- Annn LD I, nnn, R105. -/
  | ldI (nnn : Addr)
  /-- Bnnn JP V0, nnn, R85. -/
  | jpV0 (nnn : Addr)
  /-- Cxkk RND Vx, kk, R103. -/
  | rnd (x : Reg) (kk : Byte)
  /-- Dxyn DRW Vx, Vy, n, R113; n is the row count 0..15. -/
  | drw (x y : Reg) (n : Fin 16)
  /-- Ex9E SKP Vx, R118. -/
  | skp (x : Reg)
  /-- ExA1 SKNP Vx, R119. -/
  | sknp (x : Reg)
  /-- Fx07 LD Vx, DT, R120. -/
  | ldVxDt (x : Reg)
  /-- Fx0A LD Vx, K, R121. -/
  | ldVxK (x : Reg)
  /-- Fx15 LD DT, Vx, R122. -/
  | ldDtVx (x : Reg)
  /-- Fx18 LD ST, Vx, R123. -/
  | ldStVx (x : Reg)
  /-- Fx1E ADD I, Vx, R106. -/
  | addI (x : Reg)
  /-- Fx29 LD F, Vx, R107. -/
  | ldF (x : Reg)
  /-- Fx33 LD B, Vx, R108. -/
  | ldB (x : Reg)
  /-- Fx55 LD [I], Vx, R109. -/
  | storeRegs (x : Reg)
  /-- Fx65 LD Vx, [I], R110. -/
  | loadRegs (x : Reg)
deriving DecidableEq, Repr

end Sys2Proof
end

