-- ==== Sys2Proof/Decode.lean ====
section
/-! DEFINITION. The decoder, total on every word and every byte list, by the decode tree of spec
30_encoding.md R57 to R63; then the encoder; then the opcode map of R64 as a table of its own. -/

namespace Sys2Proof

/-! ### The decode fields (R55) -/

/-- `top`, op[15:12], as a number 0..15. -/
def fieldTop (op : Word) : Nat := (op.extractLsb' 12 4).toNat

/-- `nnn`, op[11:0]. -/
def fieldNnn (op : Word) : Addr := op.extractLsb' 0 12

/-- `kk`, op[7:0]. -/
def fieldKk (op : Word) : Byte := op.extractLsb' 0 8

/-- `x`, op[11:8], a register number. -/
def fieldX (op : Word) : Reg := (op.extractLsb' 8 4).toFin

/-- `y`, op[7:4], a register number. -/
def fieldY (op : Word) : Reg := (op.extractLsb' 4 4).toFin

/-- `n`, op[3:0]: the row count of Dxyn. -/
def fieldN (op : Word) : Fin 16 := (op.extractLsb' 0 4).toFin

/-! ### The decode tree -/

/-- Group 0x0 dispatches on the full opcode (R58). -/
def decodeGroup0 (op : Word) : Option Instr :=
  if op = 0x00E0#16 then some .cls
  else if op = 0x00EE#16 then some .ret
  else some (.sys (fieldNnn op))

/-- Group 0x8, the ALU group, dispatches on n (R60). -/
def decodeGroup8 (op : Word) : Option Instr :=
  match (fieldN op).val with
  | 0x0 => some (.ldReg (fieldX op) (fieldY op))
  | 0x1 => some (.orReg (fieldX op) (fieldY op))
  | 0x2 => some (.andReg (fieldX op) (fieldY op))
  | 0x3 => some (.xorReg (fieldX op) (fieldY op))
  | 0x4 => some (.addReg (fieldX op) (fieldY op))
  | 0x5 => some (.sub (fieldX op) (fieldY op))
  | 0x6 => some (.shr (fieldX op) (fieldY op))
  | 0x7 => some (.subn (fieldX op) (fieldY op))
  | 0xE => some (.shl (fieldX op) (fieldY op))
  | _ => none

/-- Group 0xE dispatches on kk (R61). -/
def decodeGroupE (op : Word) : Option Instr :=
  match (fieldKk op).toNat with
  | 0x9E => some (.skp (fieldX op))
  | 0xA1 => some (.sknp (fieldX op))
  | _ => none

/-- Group 0xF dispatches on kk (R62). -/
def decodeGroupF (op : Word) : Option Instr :=
  match (fieldKk op).toNat with
  | 0x07 => some (.ldVxDt (fieldX op))
  | 0x0A => some (.ldVxK (fieldX op))
  | 0x15 => some (.ldDtVx (fieldX op))
  | 0x18 => some (.ldStVx (fieldX op))
  | 0x1E => some (.addI (fieldX op))
  | 0x29 => some (.ldF (fieldX op))
  | 0x33 => some (.ldB (fieldX op))
  | 0x55 => some (.storeRegs (fieldX op))
  | 0x65 => some (.loadRegs (fieldX op))
  | _ => none

/-- Decode one 16-bit word: one of the 35 instructions, or `none` for UNKNOWN (R57, R63). It reads the word
alone. -/
def decodeWord (op : Word) : Option Instr :=
  match fieldTop op with
  | 0x0 => decodeGroup0 op
  | 0x1 => some (.jp (fieldNnn op))
  | 0x2 => some (.call (fieldNnn op))
  | 0x3 => some (.seImm (fieldX op) (fieldKk op))
  | 0x4 => some (.sneImm (fieldX op) (fieldKk op))
  | 0x5 => if (fieldN op).val = 0 then some (.seReg (fieldX op) (fieldY op)) else none
  | 0x6 => some (.ldImm (fieldX op) (fieldKk op))
  | 0x7 => some (.addImm (fieldX op) (fieldKk op))
  | 0x8 => decodeGroup8 op
  | 0x9 => if (fieldN op).val = 0 then some (.sneReg (fieldX op) (fieldY op)) else none
  | 0xA => some (.ldI (fieldNnn op))
  | 0xB => some (.jpV0 (fieldNnn op))
  | 0xC => some (.rnd (fieldX op) (fieldKk op))
  | 0xD => some (.drw (fieldX op) (fieldY op) (fieldN op))
  | 0xE => decodeGroupE op
  | _ => decodeGroupF op

/-! ### Decoding bytes -/

/-- Why a byte list is not an instruction. -/
inductive DecodeReject where
  /-- The two bytes form an UNKNOWN opcode (R65). The machine reports and skips it. -/
  | unknownOpcode (op : Word)
  /-- Fewer than two bytes are left: every instruction has two (R54, R67). -/
  | truncated
deriving DecidableEq, Repr

/-- What decoding a byte list gives: an instruction and the bytes after it, or a rejection by name. -/
inductive DecodeResult where
  | ok (i : Instr) (rest : List Byte)
  | reject (why : DecodeReject)
deriving DecidableEq, Repr

/-- The opcode of two bytes in memory order: big-endian, the byte at the lower address is the high byte
(20_memory.md R41, 40_cycle.md R74). -/
def wordOfBytes (hi lo : Byte) : Word := hi ++ lo

/-- The high byte of a word, which stands at the lower address (20_memory.md R41). -/
def highByte (op : Word) : Byte := op.extractLsb' 8 8

/-- The low byte of a word, which stands at the higher address (20_memory.md R41). -/
def lowByte (op : Word) : Byte := op.extractLsb' 0 8

/-- Decode the instruction at the head of a byte list. -/
def decodeBytes : List Byte → DecodeResult
  | hi :: lo :: rest =>
    match decodeWord (wordOfBytes hi lo) with
    | some i => .ok i rest
    | none => .reject (.unknownOpcode (wordOfBytes hi lo))
  | [_] => .reject .truncated
  | [] => .reject .truncated

/-- The word of an instruction whose bits, numbered as spec/opcode_table.json numbers them, are w: bit 0 is
the least significant bit of the one 16-bit word; bits from nbits up are 0. -/
def tableWord (nbits w : Nat) : Word := BitVec.ofNat 16 (w % 2 ^ nbits)

/-- The decoder on a word numbered as the opcode table numbers it: laid out as the hardware stores it, then
decoded from its bytes. -/
def decodeTableWord (nbits w : Nat) : Option Instr :=
  match decodeBytes [highByte (tableWord nbits w), lowByte (tableWord nbits w)] with
  | .ok i _ => some i
  | .reject _ => none

/-! ### The encoder (the patterns of R64) -/

/-- A register number, key or row count as the four bits of its field. -/
def nibble (r : Fin 16) : BitVec 4 := BitVec.ofFin r

/-- `tttt nnnn nnnn nnnn`, the NNN form (R56). -/
def encNNN (top : BitVec 4) (nnn : Addr) : Word := top ++ nnn

/-- `tttt xxxx kkkk kkkk`, the XKK form, and the XF form with kk as the function code (R56). -/
def encXKK (top : BitVec 4) (x : Reg) (kk : Byte) : Word := top ++ (nibble x ++ kk)

/-- `tttt xxxx yyyy nnnn`, the XYN form (R56). -/
def encXYN (top : BitVec 4) (x y : Reg) (n : BitVec 4) : Word := top ++ (nibble x ++ (nibble y ++ n))

/-- The word of an instruction (the pattern column of R64). -/
def encode : Instr → Word
  | .cls => 0x00E0#16
  | .ret => 0x00EE#16
  | .sys nnn => encNNN 0x0#4 nnn
  | .jp nnn => encNNN 0x1#4 nnn
  | .call nnn => encNNN 0x2#4 nnn
  | .seImm x kk => encXKK 0x3#4 x kk
  | .sneImm x kk => encXKK 0x4#4 x kk
  | .seReg x y => encXYN 0x5#4 x y 0x0#4
  | .ldImm x kk => encXKK 0x6#4 x kk
  | .addImm x kk => encXKK 0x7#4 x kk
  | .ldReg x y => encXYN 0x8#4 x y 0x0#4
  | .orReg x y => encXYN 0x8#4 x y 0x1#4
  | .andReg x y => encXYN 0x8#4 x y 0x2#4
  | .xorReg x y => encXYN 0x8#4 x y 0x3#4
  | .addReg x y => encXYN 0x8#4 x y 0x4#4
  | .sub x y => encXYN 0x8#4 x y 0x5#4
  | .shr x y => encXYN 0x8#4 x y 0x6#4
  | .subn x y => encXYN 0x8#4 x y 0x7#4
  | .shl x y => encXYN 0x8#4 x y 0xE#4
  | .sneReg x y => encXYN 0x9#4 x y 0x0#4
  | .ldI nnn => encNNN 0xA#4 nnn
  | .jpV0 nnn => encNNN 0xB#4 nnn
  | .rnd x kk => encXKK 0xC#4 x kk
  | .drw x y n => encXYN 0xD#4 x y (nibble n)
  | .skp x => encXKK 0xE#4 x 0x9E#8
  | .sknp x => encXKK 0xE#4 x 0xA1#8
  | .ldVxDt x => encXKK 0xF#4 x 0x07#8
  | .ldVxK x => encXKK 0xF#4 x 0x0A#8
  | .ldDtVx x => encXKK 0xF#4 x 0x15#8
  | .ldStVx x => encXKK 0xF#4 x 0x18#8
  | .addI x => encXKK 0xF#4 x 0x1E#8
  | .ldF x => encXKK 0xF#4 x 0x29#8
  | .ldB x => encXKK 0xF#4 x 0x33#8
  | .storeRegs x => encXKK 0xF#4 x 0x55#8
  | .loadRegs x => encXKK 0xF#4 x 0x65#8

/-- The two bytes of an instruction in memory order. -/
def encodeBytes (i : Instr) : List Byte := [highByte (encode i), lowByte (encode i)]

/-! ### The opcode map as a table (R64) -/

/-- A row of the opcode map: its match, its mask and the opcodes it excludes. -/
structure OpcodeRow where
  pattern : Word
  mask : Word
  excluded : List Word := []
deriving DecidableEq, Repr

/-- "an opcode op matches when op & mask = match. SYS also excludes the two opcodes listed in its row" (R64). -/
def OpcodeRow.matches (r : OpcodeRow) (op : Word) : Bool :=
  op &&& r.mask == r.pattern && !r.excluded.contains op

/-- The row of the opcode map that an instruction belongs to (R64, rows 1 to 35). -/
def Instr.row : Instr → OpcodeRow
  | .cls => ⟨0x00E0#16, 0xFFFF#16, []⟩
  | .ret => ⟨0x00EE#16, 0xFFFF#16, []⟩
  | .sys _ => ⟨0x0000#16, 0xF000#16, [0x00E0#16, 0x00EE#16]⟩
  | .jp _ => ⟨0x1000#16, 0xF000#16, []⟩
  | .call _ => ⟨0x2000#16, 0xF000#16, []⟩
  | .seImm _ _ => ⟨0x3000#16, 0xF000#16, []⟩
  | .sneImm _ _ => ⟨0x4000#16, 0xF000#16, []⟩
  | .seReg _ _ => ⟨0x5000#16, 0xF00F#16, []⟩
  | .ldImm _ _ => ⟨0x6000#16, 0xF000#16, []⟩
  | .addImm _ _ => ⟨0x7000#16, 0xF000#16, []⟩
  | .ldReg _ _ => ⟨0x8000#16, 0xF00F#16, []⟩
  | .orReg _ _ => ⟨0x8001#16, 0xF00F#16, []⟩
  | .andReg _ _ => ⟨0x8002#16, 0xF00F#16, []⟩
  | .xorReg _ _ => ⟨0x8003#16, 0xF00F#16, []⟩
  | .addReg _ _ => ⟨0x8004#16, 0xF00F#16, []⟩
  | .sub _ _ => ⟨0x8005#16, 0xF00F#16, []⟩
  | .shr _ _ => ⟨0x8006#16, 0xF00F#16, []⟩
  | .subn _ _ => ⟨0x8007#16, 0xF00F#16, []⟩
  | .shl _ _ => ⟨0x800E#16, 0xF00F#16, []⟩
  | .sneReg _ _ => ⟨0x9000#16, 0xF00F#16, []⟩
  | .ldI _ => ⟨0xA000#16, 0xF000#16, []⟩
  | .jpV0 _ => ⟨0xB000#16, 0xF000#16, []⟩
  | .rnd _ _ => ⟨0xC000#16, 0xF000#16, []⟩
  | .drw _ _ _ => ⟨0xD000#16, 0xF000#16, []⟩
  | .skp _ => ⟨0xE09E#16, 0xF0FF#16, []⟩
  | .sknp _ => ⟨0xE0A1#16, 0xF0FF#16, []⟩
  | .ldVxDt _ => ⟨0xF007#16, 0xF0FF#16, []⟩
  | .ldVxK _ => ⟨0xF00A#16, 0xF0FF#16, []⟩
  | .ldDtVx _ => ⟨0xF015#16, 0xF0FF#16, []⟩
  | .ldStVx _ => ⟨0xF018#16, 0xF0FF#16, []⟩
  | .addI _ => ⟨0xF01E#16, 0xF0FF#16, []⟩
  | .ldF _ => ⟨0xF029#16, 0xF0FF#16, []⟩
  | .ldB _ => ⟨0xF033#16, 0xF0FF#16, []⟩
  | .storeRegs _ => ⟨0xF055#16, 0xF0FF#16, []⟩
  | .loadRegs _ => ⟨0xF065#16, 0xF0FF#16, []⟩

/-- One instruction of each constructor, its fields at zero: the rows of the map are its rows. -/
def oneOfEach : List Instr :=
  [.cls, .ret, .sys 0, .jp 0, .call 0, .seImm 0 0, .sneImm 0 0, .seReg 0 0, .ldImm 0 0, .addImm 0 0] ++
  [.ldReg 0 0, .orReg 0 0, .andReg 0 0, .xorReg 0 0, .addReg 0 0, .sub 0 0, .shr 0 0, .subn 0 0, .shl 0 0] ++
  [.sneReg 0 0, .ldI 0, .jpV0 0, .rnd 0 0, .drw 0 0 0, .skp 0, .sknp 0] ++
  [.ldVxDt 0, .ldVxK 0, .ldDtVx 0, .ldStVx 0, .addI 0, .ldF 0, .ldB 0, .storeRegs 0, .loadRegs 0]

/-- The opcode map: the 35 rows of R64, in its order. -/
def opcodeMap : List OpcodeRow := oneOfEach.map Instr.row

end Sys2Proof
end

