-- ==== Sys2Proof/Config.lean ====
section
/-! DEFINITION. The implementation parameters of spec 00_scope.md R8, and the two free values of the model:
the font bytes the source does not give, and the stream of random draws. -/

namespace Sys2Proof.Config

/-- PC_RESET: where execution starts (10_state.md R19). -/
abbrev pcReset : Word := 0x200#16

/-- FONT_BASE: the first byte of the font table (20_memory.md R45). -/
abbrev fontBase : Nat := 0x050

/-- FONT_LEN: 16 glyphs of 5 bytes (70_reset_and_hazards.md R151). -/
abbrev fontLen : Nat := 80

/-- PROG_BASE: where the image is copied (70_reset_and_hazards.md R152). -/
abbrev progBase : Nat := 0x200

/-- MAX_IMAGE: 4096 - 0x200 bytes (00_scope.md R8, 70_reset_and_hazards.md R152). -/
abbrev maxImage : Nat := 3584

/-- FREE VALUE (log 2). FONT_TABLE[j] for 5 ≤ j < 80: an open parameter, the source lists only glyph 0
(92_eei_decisions.md D17). No body: a claim holds for every font. -/
opaque fontRest : Nat → Byte

/-- FONT_TABLE[j]: bytes 0..4 are `F0 90 90 90 F0`, the only glyph the source attests
(70_reset_and_hazards.md R151); the others are open. -/
def fontByte : Nat → Byte
  | 0 => 0xF0#8
  | 1 => 0x90#8
  | 2 => 0x90#8
  | 3 => 0x90#8
  | 4 => 0xF0#8
  | j => fontRest j

/-- FREE VALUE (log 3). The byte that the n-th call of `rnd()` returns (60_exceptions.md R141: "a free input
of the cycle"). No body: a claim holds for every sequence of draws. -/
opaque rndByte : Nat → Byte

end Sys2Proof.Config
end

