-- ==== Sys2Proof/Machine/State.lean ====
section
/-! DEFINITION. The state of the machine, as plain data: every piece of spec 10_state.md R15, the report
stream of 60_exceptions.md R135 and the draw counter of the model; the reasons a step can stop; reset. -/

namespace Sys2Proof.Machine

/-- The codes of the fatal faults (60_exceptions.md R126). Their numbers are given by `FaultCode.number`. -/
inductive FaultCode where
  /-- 1: `pc > 4094` at the start of a cycle (R127). -/
  | pcOverrun
  /-- 2: CALL with sp = 16 (R128). -/
  | stackOverflow
  /-- 3: RET with sp = 0 (R129). -/
  | stackUnderflow
  /-- 4: an access through I at an address above 0xFFF (R130). -/
  | memRange
  /-- 5: SKP or SKNP with V[x] > 0xF (R131). -/
  | keyRange
deriving DecidableEq, Repr

/-- Why the machine has no next step. -/
inductive Fault where
  /-- Raised by `step` alone, in a state whose `halted` is true: "a halted core takes no cycle"
  (40_cycle.md R72). Safe: the spec gives such a core no step (log 5). -/
  | halted
deriving DecidableEq, Repr

/-- Why something is refused. No instruction is refused; the last two belong to the host interface. -/
inductive Refusal where
  /-- An instruction without a meaning, by its mnemonic. Safe. No arm of `exec` uses it. -/
  | notModelled (mnemonic : String)
  /-- Raised by `load`: an image longer than 3584 bytes (70_reset_and_hazards.md R152). Safe. -/
  | imageTooLarge
  /-- Raised by `EnvOp.apply`: a host operation where the lifecycle does not allow it
  (60_exceptions.md R148, 70_reset_and_hazards.md R153, R154). Safe. -/
  | notInThisPhase
deriving DecidableEq, Repr

/-- Memory as the list of the bytes that differ from the reset contents, by rising address
(`Memory.wf` in Machine/Ops.lean says the form; log 1). -/
abbrev Memory := List Host.Cell

/-- The display buffer: 32 rows of 64 one-bit cells. Cell k = row*64 + col is bit col of row `row`
(10_state.md R26). -/
abbrev Display := Vector (BitVec 64) 32

/-- One entry of the report stream: the opcode and the address it was fetched from (60_exceptions.md R135). -/
structure Report where
  op : Word
  addr : Word
deriving DecidableEq, Repr

/-- The state of the core (10_state.md R15). -/
structure State where
  /-- V0..VF (R16). -/
  v : Vector Byte 16
  /-- The index register I (R18). -/
  i : Word
  /-- The program counter (R19). -/
  pc : Word
  /-- The count of return addresses pushed, 0..16 (R22). -/
  sp : Fin 17
  /-- The sixteen return addresses (R23). -/
  stack : Vector Word 16
  /-- The delay timer (R24). -/
  dt : Byte
  /-- The sound timer (R25). -/
  st : Byte
  /-- The display buffer (R26). -/
  disp : Display
  /-- The keypad latches, true = pressed (R27). -/
  key : Vector Bool 16
  /-- The memory (R35). -/
  mem : Memory
  /-- The run has ended in a fatal fault (R28). -/
  halted : Bool
  /-- The code of that fault, or none (R28). -/
  faultCode : Option FaultCode
  /-- The address that fault reports (R28). -/
  faultAddr : Word
  /-- The unknown-opcode reports so far, oldest first: an output, not architectural state
  (60_exceptions.md R135; log 4). -/
  reports : List Report
  /-- The model's own field: how many bytes `rnd()` has drawn (60_exceptions.md R141; log 3). -/
  draws : Nat
deriving DecidableEq, Repr

/-- What running an instruction or a step answers. -/
abbrev Result := Host.Outcome State Fault Refusal

/-- The state after Initialize (10_state.md R34, 70_reset_and_hazards.md R150): memory lists nothing, since an
unlisted address reads as its reset contents. -/
def State.reset : State where
  v := Vector.replicate 16 0#8
  i := 0#16
  pc := Config.pcReset
  sp := 0
  stack := Vector.replicate 16 0#16
  dt := 0#8
  st := 0#8
  disp := Vector.replicate 32 0#64
  key := Vector.replicate 16 false
  mem := []
  halted := false
  faultCode := none
  faultAddr := 0#16
  reports := []
  draws := 0

end Sys2Proof.Machine
end

