-- ==== Sys2Proof/Machine/Ops.lean ====
section
/-! DEFINITION. The named operations over memory, registers, stack, display, keypad and run status that every
meaning is written in: spec 10_state.md, 20_memory.md, 60_exceptions.md R125 and the fetch of 40_cycle.md. -/

namespace Sys2Proof.Machine

/-! ### Memory (20_memory.md) -/

/-- What an unlisted address reads as: the contents after Initialize (10_state.md R34): the font table at
0x050..0x09F, zero elsewhere (log 1). -/
def Memory.initial (a : Nat) : Byte :=
  if Config.fontBase ≤ a ∧ a < Config.fontBase + Config.fontLen then Config.fontByte (a - Config.fontBase)
  else 0#8

/-- The byte at an address. -/
def Memory.read : Memory → Nat → Byte
  | [], a => Memory.initial a
  | (k, b) :: m, a => if a = k then b else Memory.read m a

/-- List an address with a byte, at its place in the rising order. -/
def Memory.insert : Memory → Nat → Byte → Memory
  | [], a, b => [(a, b)]
  | (k, c) :: m, a, b =>
    if a < k then (a, b) :: (k, c) :: m
    else if a = k then (a, b) :: m
    else (k, c) :: Memory.insert m a b

/-- Unlist an address. -/
def Memory.erase (m : Memory) (a : Nat) : Memory := m.filter (fun c => c.1 != a)

/-- Change the byte at an address, in canonical form: a byte equal to the reset contents is not listed. -/
def Memory.write (m : Memory) (a : Nat) (b : Byte) : Memory :=
  if b = Memory.initial a then Memory.erase m a else Memory.insert m a b

/-- Write a list of bytes at rising addresses, in that order (20_memory.md R48). -/
def Memory.writeBytes : Memory → Nat → List Byte → Memory
  | m, _, [] => m
  | m, a, b :: bs => Memory.writeBytes (Memory.write m a b) (a + 1) bs

/-- The canonical form: addresses strictly rising, inside 0x000..0xFFF, and no entry equal to the reset
contents (log 1). -/
abbrev Memory.wf (m : Memory) : Prop :=
  m.Pairwise (fun c d => c.1 < d.1) ∧ ∀ c ∈ m, c.1 ≤ 0xFFF ∧ c.2 ≠ Memory.initial c.1

/-- `MemRead(addr, 1)`: none is the case that raises MEM_RANGE (20_memory.md R38). -/
def State.memRead (s : State) (addr : Nat) : Option Byte :=
  if addr > 0xFFF then none else some (s.mem.read addr)

/-- `MemWrite(addr, 1, v)`: none is the case that raises MEM_RANGE (20_memory.md R38). -/
def State.memWrite (s : State) (addr : Nat) (b : Byte) : Option State :=
  if addr > 0xFFF then none else some { s with mem := s.mem.write addr b }

/-- The range check of a block of `len` bytes from `base`: its highest address is at most 0xFFF; an empty
block is never out of range (20_memory.md R39). The address is exact, neither wrapped nor masked. -/
def blockInRange (base len : Nat) : Bool := len == 0 || decide (base + (len - 1) ≤ 0xFFF)

/-- Read the block I..I+len-1, all or nothing: the check of the highest address comes first
(20_memory.md R39). -/
def State.readBlock (s : State) (len : Nat) : Option (List Byte) :=
  if blockInRange s.i.toNat len then some ((List.range len).map (fun k => s.mem.read (s.i.toNat + k)))
  else none

/-- Write the bytes at I, I+1, ..., all or nothing: the check of the highest address comes first
(20_memory.md R39). -/
def State.writeBlock (s : State) (bs : List Byte) : Option State :=
  if blockInRange s.i.toNat bs.length then some { s with mem := s.mem.writeBytes s.i.toNat bs } else none

/-! ### Registers -/

/-- Read V[x] (00_scope.md R11). -/
def State.getV (s : State) (x : Reg) : Byte := s.v[x]

/-- Write V[x] (00_scope.md R11). -/
def State.setV (s : State) (x : Reg) (b : Byte) : State := { s with v := s.v.set x b }

/-- Write the primary result to Vx, then the flag to VF, so that with x = 0xF the flag remains
(10_state.md R17, 42_alu.md R91). -/
def State.setResultFlag (s : State) (x : Reg) (result flag : Byte) : State := (s.setV x result).setV VF flag

/-- V0, V1, ... become the listed bytes; the registers after the list keep their values
(43_index_memory.md R110). -/
def State.setRegs (s : State) (bs : List Byte) : State :=
  { s with v := Vector.ofFn (fun k : Fin 16 => bs.getD k.val s.v[k]) }

/-- Write the index register. -/
def State.setI (s : State) (a : Word) : State := { s with i := a }

/-- Write the program counter. -/
def State.setPc (s : State) (a : Word) : State := { s with pc := a }

/-- Write the delay timer. -/
def State.setDt (s : State) (b : Byte) : State := { s with dt := b }

/-- Write the sound timer. -/
def State.setSt (s : State) (b : Byte) : State := { s with st := b }

/-- A skip: `pc <- pc + 2` when the condition holds (41_control_flow.md R86 to R90). -/
def State.skipIf (s : State) (c : Bool) : State := if c then s.setPc (s.pc + 2#16) else s

/-! ### The call stack (10_state.md R22, R23) -/

/-- Push pc: `stack[sp] <- pc; sp <- sp + 1`; none when sp = 16 (41_control_flow.md R83). -/
def State.pushPc (s : State) : Option State :=
  if h : s.sp.val < 16 then
    some { s with stack := s.stack.set s.sp.val s.pc, sp := ⟨s.sp.val + 1, by omega⟩ }
  else none

/-- Pop pc: `sp <- sp - 1; pc <- stack[sp]`; none when sp = 0; the popped slot keeps its value
(41_control_flow.md R84). -/
def State.popPc (s : State) : Option State :=
  if h : s.sp.val = 0 then none
  else some { s with sp := ⟨s.sp.val - 1, by omega⟩, pc := s.stack[s.sp.val - 1] }

/-! ### The display (10_state.md R26, 44_display.md) -/

/-- `disp[r][c]`. -/
def Display.cell (d : Display) (r : Fin 32) (c : Fin 64) : Bool := d[r].getLsbD c.val

/-- `disp[r][c] <- disp[r][c] ^ 1`. -/
def Display.toggle (d : Display) (r : Fin 32) (c : Fin 64) : Display := d.set r (d[r] ^^^ BitVec.twoPow 64 c.val)

/-- Every cell off. -/
def Display.clear : Display := Vector.replicate 32 0#64

/-- A row number reduced modulo 32 (44_display.md R114). -/
def wrapRow (k : Nat) : Fin 32 := Fin.ofNat 32 k

/-- A column number reduced modulo 64 (44_display.md R114). -/
def wrapCol (k : Nat) : Fin 64 := Fin.ofNat 64 k

/-- Column `col` of a sprite byte: bit 7 is the leftmost pixel (44_display.md R113). -/
def spriteBit (b : Byte) (col : Nat) : Bool := b.getLsbD (7 - col)

/-- One column of one sprite row: where the bit is set, note whether the cell was on, then toggle it. The
Bool is the collision seen so far (44_display.md R113). -/
def drawBit (px py row : Nat) (b : Byte) (d : Display × Bool) (col : Nat) : Display × Bool :=
  if spriteBit b col then
    (d.1.toggle (wrapRow (py + row)) (wrapCol (px + col)),
      d.2 || d.1.cell (wrapRow (py + row)) (wrapCol (px + col)))
  else d

/-- One sprite row: its eight columns, left to right. -/
def drawRow (px py row : Nat) (b : Byte) (d : Display × Bool) : Display × Bool :=
  (List.range 8).foldl (drawBit px py row b) d

/-- The sprite's rows from number `row` on, top to bottom. -/
def drawRows (px py : Nat) : Nat → List Byte → Display × Bool → Display × Bool
  | _, [], d => d
  | row, b :: bs, d => drawRows px py (row + 1) bs (drawRow px py row b d)

/-! ### The keypad (10_state.md R27) -/

/-- The latch whose number is the byte; none when there is no such key (45_keys_timers.md R118, R119). -/
def State.keyAt (s : State) (b : Byte) : Option Bool := s.key[b.toNat]?

/-- The least j with key[j] = 1, or none (45_keys_timers.md R121). -/
def State.firstKey (s : State) : Option Key := (List.finRange 16).find? (fun k => s.key[k])

/-! ### The random source (60_exceptions.md R141) -/

/-- The byte the next `rnd()` returns: a free value (log 3). -/
def State.drawnByte (s : State) : Byte := Config.rndByte s.draws

/-- The draw is consumed: the next one is another. -/
def State.consumeDraw (s : State) : State := { s with draws := s.draws + 1 }

/-! ### Faults and reports (60_exceptions.md) -/

/-- The number of a fault code (R126). -/
def FaultCode.number : FaultCode → Nat
  | .pcOverrun => 1
  | .stackOverflow => 2
  | .stackUnderflow => 3
  | .memRange => 4
  | .keyRange => 5

/-- `raise Fatal(code, addr)`: the one way the core takes a fatal fault; it writes the run status and nothing
else (R125, R132). There is no handler and no return from it (R136). -/
def State.raiseFatal (s : State) (code : FaultCode) (addr : Word) : State :=
  { s with halted := true, faultCode := some code, faultAddr := addr }

/-- The fetch address a of the executing instruction, which sees pc = a + 2 (40_cycle.md R75; log 8). -/
def State.fetchAddr (s : State) : Word := s.pc - 2#16

/-- `report Unknown(op, a)`: append the pair to the report stream (R135). -/
def State.reportUnknown (s : State) (op addr : Word) : State := { s with reports := s.reports ++ [⟨op, addr⟩] }

/-! ### Fetching (40_cycle.md) -/

/-- The fatal check's condition: `pc > 4094` (R73). -/
def State.fetchOverrun (s : State) : Bool := decide (s.pc.toNat > 4094)

/-- `opcode = mem[pc] << 8 | mem[pc+1]` (R74). -/
def State.fetchWord (s : State) : Word := wordOfBytes (s.mem.read s.pc.toNat) (s.mem.read (s.pc.toNat + 1))

/-- The fetch advance, `pc <- a + 2` (R75). -/
def State.fetchAdvance (s : State) : State := s.setPc (s.pc + 2#16)

/-- Store a word big-endian where the next fetch reads it; where no fetch is possible (pc > 4094) nothing is
stored (log 6). -/
def State.placeWord (s : State) (op : Word) : State :=
  if s.fetchOverrun then s
  else { s with mem := s.mem.writeBytes s.pc.toNat [highByte op, lowByte op] }

end Sys2Proof.Machine
end

