-- ==== Sys2Proof/Machine/Flags.lean ====
section
/-! DEFINITION. The flag computations: the values spec 10_state.md R33 lists for VF, the only flag. -/

namespace Sys2Proof.Machine

/-- A condition as the flag value 1 or 0. -/
def flagOf (c : Bool) : Byte := if c then 1#8 else 0#8

/-- 8xy4: 1 if the exact sum is above 255, else 0 (42_alu.md R98). -/
def carryFlag (a b : Byte) : Byte := flagOf (decide (a.toNat + b.toNat > 255))

/-- 8xy5 and 8xy7: 1 if the minuend is strictly greater than the subtrahend, else 0 (42_alu.md R99, R101). -/
def notBorrowFlag (minuend subtrahend : Byte) : Byte := flagOf (decide (minuend.toNat > subtrahend.toNat))

/-- 8xy6: the old bit 0 (42_alu.md R100). -/
def shiftedOutLow (a : Byte) : Byte := a &&& 1#8

/-- 8xyE: the old bit 7 (42_alu.md R102). -/
def shiftedOutHigh (a : Byte) : Byte := (a >>> 7) &&& 1#8

/-- Dxyn: 1 if any collision, else 0 (44_display.md R115). -/
def collisionFlag (hit : Bool) : Byte := flagOf hit

end Sys2Proof.Machine
end

