-- ==== Sys2Proof/Machine/Operands.lean ====
section
/-! DEFINITION. The operand forms of spec 30_encoding.md R56: how a field or a register becomes the value an
instruction uses. Every value is unsigned, used at its own width or zero-extended. -/

namespace Sys2Proof.Machine

/-- `zext_16(nnn)` (30_encoding.md R56). -/
def zextAddr (nnn : Addr) : Word := nnn.setWidth 16

/-- `zext_16(b)` of a register's byte, for 16-bit sums (41_control_flow.md R85, 43_index_memory.md R106). -/
def zextByte (b : Byte) : Word := b.setWidth 16

/-- The address of glyph b, `0x050 + 5 * b`, with the whole byte (43_index_memory.md R107, 90_conflicts.md C7). -/
def glyphAddr (b : Byte) : Word := BitVec.ofNat 16 (Config.fontBase + 5 * b.toNat)

/-- The decimal digits of a byte, hundreds first (43_index_memory.md R108). -/
def decimalDigits (b : Byte) : List Byte :=
  [BitVec.ofNat 8 (b.toNat / 100), BitVec.ofNat 8 (b.toNat / 10 % 10), BitVec.ofNat 8 (b.toNat % 10)]

/-- The values of V0..Vx, in that order (43_index_memory.md R109). -/
def State.regsUpTo (s : State) (x : Reg) : List Byte := s.v.toList.take (x.val + 1)

/-- The start column of a sprite, `V[x] mod 64` (44_display.md R113). -/
def State.spriteCol (s : State) (x : Reg) : Nat := (s.getV x).toNat % 64

/-- The start row of a sprite, `V[y] mod 32` (44_display.md R113). -/
def State.spriteRow (s : State) (y : Reg) : Nat := (s.getV y).toNat % 32

/-- A key number as the byte Fx0A writes (45_keys_timers.md R121). -/
def keyByte (k : Key) : Byte := BitVec.ofNat 8 k.val

end Sys2Proof.Machine
end

