-- ==== Sys2Proof/Machine/Alu.lean ====
section
/-! DEFINITION. Register loads, arithmetic, logic and RND: spec 42_alu.md R91 to R104. None of them touches
memory or pc, and none can fault. -/

namespace Sys2Proof.Machine

/-- R92: `V[x] <- kk`. -/
def execLdImm (x : Reg) (kk : Byte) (s : State) : Result := .next (s.setV x kk)

/-- R93: `V[x] <- (V[x] + kk) mod 256`; no flag. -/
def execAddImm (x : Reg) (kk : Byte) (s : State) : Result := .next (s.setV x (s.getV x + kk))

/-- R94: `V[x] <- V[y]`. -/
def execLdReg (x y : Reg) (s : State) : Result := .next (s.setV x (s.getV y))

/-- R95: `V[x] <- V[x] | V[y]`; VF is not reset. -/
def execOrReg (x y : Reg) (s : State) : Result := .next (s.setV x (s.getV x ||| s.getV y))

/-- R96: `V[x] <- V[x] & V[y]`; VF is not reset. -/
def execAndReg (x y : Reg) (s : State) : Result := .next (s.setV x (s.getV x &&& s.getV y))

/-- R97: `V[x] <- V[x] ^ V[y]`; VF is not reset. -/
def execXorReg (x y : Reg) (s : State) : Result := .next (s.setV x (s.getV x ^^^ s.getV y))

/-- R98: `V[x] <- s mod 256`; `V[15] <- f`, with s the exact sum and f its carry. -/
def execAddReg (x y : Reg) (s : State) : Result :=
  .next (s.setResultFlag x (s.getV x + s.getV y) (carryFlag (s.getV x) (s.getV y)))

/-- R99: `V[x] <- (V[x] - V[y]) mod 256`; `V[15] <- (V[x] > V[y])` of the old values. -/
def execSub (x y : Reg) (s : State) : Result :=
  .next (s.setResultFlag x (s.getV x - s.getV y) (notBorrowFlag (s.getV x) (s.getV y)))

/-- R100: `V[x] <- V[x] >> 1`; `V[15] <-` the old bit 0 of Vx; y is ignored (R68). -/
def execShr (x _y : Reg) (s : State) : Result :=
  .next (s.setResultFlag x (s.getV x >>> 1) (shiftedOutLow (s.getV x)))

/-- R101: `V[x] <- (V[y] - V[x]) mod 256`; `V[15] <- (V[y] > V[x])` of the old values. -/
def execSubn (x y : Reg) (s : State) : Result :=
  .next (s.setResultFlag x (s.getV y - s.getV x) (notBorrowFlag (s.getV y) (s.getV x)))

/-- R102: `V[x] <- (V[x] << 1) mod 256`; `V[15] <-` the old bit 7 of Vx; y is ignored (R68). -/
def execShl (x _y : Reg) (s : State) : Result :=
  .next (s.setResultFlag x (s.getV x <<< 1) (shiftedOutHigh (s.getV x)))

/-- R103: `let r = rnd()`; `V[x] <- r & kk`, with r a free byte (60_exceptions.md R141; log 3). -/
def execRnd (x : Reg) (kk : Byte) (s : State) : Result := .next (s.consumeDraw.setV x (s.drawnByte &&& kk))

end Sys2Proof.Machine
end

