-- ==== Sys2Proof/Machine/ControlFlow.lean ====
section
/-! DEFINITION. SYS, the jumps, CALL, RET and the skips that compare registers: spec 41_control_flow.md R81 to
R90. Every meaning starts with pc = a + 2 (40_cycle.md R75). -/

namespace Sys2Proof.Machine

/-- R84: `if sp = 0 then raise Fatal(STACK_UNDERFLOW, a)`; `sp <- sp - 1`; `pc <- stack[sp]`. -/
def execRet (s : State) : Result :=
  match s.popPc with
  | none => .next (s.raiseFatal .stackUnderflow s.fetchAddr)
  | some t => .next t

/-- R81: nothing; nnn is ignored. -/
def execSys (_nnn : Addr) (s : State) : Result := .next s

/-- R82: `pc <- zext_16(nnn)`. -/
def execJp (nnn : Addr) (s : State) : Result := .next (s.setPc (zextAddr nnn))

/-- R83: `if sp = 16 then raise Fatal(STACK_OVERFLOW, a)`; `stack[sp] <- pc`; `sp <- sp + 1`;
`pc <- zext_16(nnn)`. -/
def execCall (nnn : Addr) (s : State) : Result :=
  match s.pushPc with
  | none => .next (s.raiseFatal .stackOverflow s.fetchAddr)
  | some t => .next (t.setPc (zextAddr nnn))

/-- R85: `pc <- V[0] + nnn`, always V0, not masked to 12 bits. -/
def execJpV0 (nnn : Addr) (s : State) : Result := .next (s.setPc (zextByte (s.getV 0) + zextAddr nnn))

/-- R86: `if V[x] = kk then pc <- pc + 2`. -/
def execSeImm (x : Reg) (kk : Byte) (s : State) : Result := .next (s.skipIf (s.getV x == kk))

/-- R87: `if V[x] ≠ kk then pc <- pc + 2`. -/
def execSneImm (x : Reg) (kk : Byte) (s : State) : Result := .next (s.skipIf (s.getV x != kk))

/-- R88: `if V[x] = V[y] then pc <- pc + 2`. -/
def execSeReg (x y : Reg) (s : State) : Result := .next (s.skipIf (s.getV x == s.getV y))

/-- R89: `if V[x] ≠ V[y] then pc <- pc + 2`. -/
def execSneReg (x y : Reg) (s : State) : Result := .next (s.skipIf (s.getV x != s.getV y))

end Sys2Proof.Machine
end

