-- ==== Sys2Proof/Machine/Display.lean ====
section
/-! DEFINITION. The display instructions and the collision detector: spec 44_display.md R112 to R117. -/

namespace Sys2Proof.Machine

/-- R112: every cell off; VF is not written. -/
def execCls (s : State) : Result := .next { s with disp := Display.clear }

/-- R113: the n sprite bytes at I are drawn with XOR from column `V[x] mod 64` and row `V[y] mod 32` (both read
before VF is cleared), wrapping on both axes, and VF becomes the collision; or MEM_RANGE before any write. -/
def execDrw (x y : Reg) (n : Fin 16) (s : State) : Result :=
  match s.readBlock n.val with
  | none => .next (s.raiseFatal .memRange s.fetchAddr)
  | some sprite =>
    let drawn := drawRows (s.spriteCol x) (s.spriteRow y) 0 sprite (s.disp, false)
    .next (State.setV { s with disp := drawn.1 } VF (collisionFlag drawn.2))

end Sys2Proof.Machine
end

