-- ==== Sys2Proof/Machine/IndexMemory.lean ====
section
/-! DEFINITION. The index register and the memory instructions: spec 43_index_memory.md R105 to R111. The range
check comes before every access through I (20_memory.md R39). -/

namespace Sys2Proof.Machine

/-- R105: `I <- zext_16(nnn)`. -/
def execLdI (nnn : Addr) (s : State) : Result := .next (s.setI (zextAddr nnn))

/-- R106: `I <- (I + V[x]) mod 65536`; no flag. -/
def execAddI (x : Reg) (s : State) : Result := .next (s.setI (s.i + zextByte (s.getV x)))

/-- R107: `I <- 0x050 + 5 * V[x]`. -/
def execLdF (x : Reg) (s : State) : Result := .next (s.setI (glyphAddr (s.getV x)))

/-- R108: the three decimal digits of Vx at I, I+1, I+2, or MEM_RANGE before any write. -/
def execLdB (x : Reg) (s : State) : Result :=
  match s.writeBlock (decimalDigits (s.getV x)) with
  | none => .next (s.raiseFatal .memRange s.fetchAddr)
  | some t => .next t

/-- R109: V0..Vx at I..I+x, or MEM_RANGE before any write; I is not changed. -/
def execStoreRegs (x : Reg) (s : State) : Result :=
  match s.writeBlock (s.regsUpTo x) with
  | none => .next (s.raiseFatal .memRange s.fetchAddr)
  | some t => .next t

/-- R110: V0..Vx from I..I+x, or MEM_RANGE before any access; I is not changed. -/
def execLoadRegs (x : Reg) (s : State) : Result :=
  match s.readBlock (x.val + 1) with
  | none => .next (s.raiseFatal .memRange s.fetchAddr)
  | some bs => .next (s.setRegs bs)

end Sys2Proof.Machine
end

