-- ==== Sys2Proof/Machine/KeysTimers.lean ====
section
/-! DEFINITION. The keypad and timer instructions: spec 45_keys_timers.md R118 to R123. -/

namespace Sys2Proof.Machine

/-- R118: `if V[x] > 0xF then raise Fatal(KEY_RANGE, a)`; `if key[V[x]] = 1 then pc <- pc + 2`. -/
def execSkp (x : Reg) (s : State) : Result :=
  match s.keyAt (s.getV x) with
  | none => .next (s.raiseFatal .keyRange s.fetchAddr)
  | some pressed => .next (s.skipIf pressed)

/-- R119: `if V[x] > 0xF then raise Fatal(KEY_RANGE, a)`; `if key[V[x]] = 0 then pc <- pc + 2`. -/
def execSknp (x : Reg) (s : State) : Result :=
  match s.keyAt (s.getV x) with
  | none => .next (s.raiseFatal .keyRange s.fetchAddr)
  | some pressed => .next (s.skipIf (!pressed))

/-- R120: `V[x] <- DT`. -/
def execLdVxDt (x : Reg) (s : State) : Result := .next (s.setV x s.dt)

/-- R121: the least pressed key into Vx, or `pc <- pc - 2` so that the instruction runs again. -/
def execLdVxK (x : Reg) (s : State) : Result :=
  match s.firstKey with
  | none => .next (s.setPc (s.pc - 2#16))
  | some k => .next (s.setV x (keyByte k))

/-- R122: `DT <- V[x]`. -/
def execLdDtVx (x : Reg) (s : State) : Result := .next (s.setDt (s.getV x))

/-- R123: `ST <- V[x]`. -/
def execLdStVx (x : Reg) (s : State) : Result := .next (s.setSt (s.getV x))

end Sys2Proof.Machine
end

