-- ==== Sys2Proof/Machine/Step.lean ====
section
/-! DEFINITION. One cycle of the core: spec 40_cycle.md R71. -/

namespace Sys2Proof.Machine

/-- The cycle, in the order of 40_cycle.md R71: a halted core takes no cycle (R72), the fatal check (R73), the
fetch (R74), the advance (R75), decoding (R76), then the instruction (R77) or the report of an unknown opcode,
which sees the fetch address (R78). -/
def step (s : State) : Host.Outcome State Fault Refusal :=
  if s.halted then .fault .halted
  else if s.fetchOverrun then .next (s.raiseFatal .pcOverrun s.pc)
  else
    match decodeWord s.fetchWord with
    | some i => exec i s.fetchAdvance
    | none => .next (s.fetchAdvance.reportUnknown s.fetchWord s.pc)

/-- The instruction word w, numbered as the opcode table numbers it, stored where the next step fetches: big-endian
at pc and pc + 1. It stands for the host's Load (70_reset_and_hazards.md R152; log 6). -/
def State.withFetchWord (s : State) (nbits w : Nat) : State := s.placeWord (tableWord nbits w)

end Sys2Proof.Machine
end

