-- ==== Sys2Proof/Machine/Environment.lean ====
section
/-! DEFINITION. The host interface: the operations of spec 60_exceptions.md R148 and the lifecycle of
70_reset_and_hazards.md R150 to R154. Each acts between two cycles; none is part of a cycle. -/

namespace Sys2Proof.Machine

/-- `Tick()`: each timer counts down by one and stops at 0 (60_exceptions.md R140; log 7). -/
def State.tick (s : State) : State :=
  { s with dt := if s.dt = 0#8 then 0#8 else s.dt - 1#8, st := if s.st = 0#8 then 0#8 else s.st - 1#8 }

/-- `SetKeys(k)`: all sixteen latches are overwritten (60_exceptions.md R142). -/
def State.setKeys (s : State) (k : Vector Bool 16) : State := { s with key := k }

/-- `Load(image)`: refused when longer than 3584 bytes, else copied verbatim from 0x200
(70_reset_and_hazards.md R152). -/
def State.load (s : State) (image : List Byte) : Result :=
  if image.length > Config.maxImage then .refused .imageTooLarge
  else .next { s with mem := s.mem.writeBytes Config.progBase image }

/-- The life of one run (70_reset_and_hazards.md R153): before Initialize there is no core state. -/
inductive Session where
  /-- Before Initialize. -/
  | off
  /-- After Initialize, no image loaded, no cycle taken. -/
  | initialized (s : State)
  /-- After Load, no cycle taken. -/
  | loaded (s : State)
  /-- A cycle has been requested. -/
  | running (s : State)
deriving DecidableEq, Repr

/-- The core's state, once there is one. -/
def Session.state : Session → Option State
  | .off => none
  | .initialized s => some s
  | .loaded s => some s
  | .running s => some s

/-- An operation of the host (60_exceptions.md R148). The draw of `Cycle(r)` is the free stream
`Config.rndByte` (log 3). -/
inductive EnvOp where
  /-- Initialize. -/
  | init
  | load (image : List Byte)
  | setKeys (k : Vector Bool 16)
  | tick
  | cycle
  /-- "read state": changes nothing. -/
  | readState
deriving DecidableEq, Repr

/-- What a host operation answers. -/
abbrev SessionResult := Host.Outcome Session Fault Refusal

/-- Initialize: once, first (60_exceptions.md R148, 70_reset_and_hazards.md R150, R154). -/
def Session.initCore : Session → SessionResult
  | .off => .next (.initialized State.reset)
  | .initialized _ => .refused .notInThisPhase
  | .loaded _ => .refused .notInThisPhase
  | .running _ => .refused .notInThisPhase

/-- Load: once, after Initialize, before the first Cycle (60_exceptions.md R148, 70_reset_and_hazards.md R152). -/
def Session.load (image : List Byte) : Session → SessionResult
  | .initialized s =>
    match s.load image with
    | .next t => .next (.loaded t)
    | .fault r => .fault r
    | .refused r => .refused r
  | .off => .refused .notInThisPhase
  | .loaded _ => .refused .notInThisPhase
  | .running _ => .refused .notInThisPhase

/-- An operation that may happen between any two operations once the core is initialized, and leaves the phase
as it is (log 10). -/
def Session.between (f : State → State) : Session → SessionResult
  | .off => .refused .notInThisPhase
  | .initialized s => .next (.initialized (f s))
  | .loaded s => .next (.loaded (f s))
  | .running s => .next (.running (f s))

/-- Cycle: one step of the core, while it is not halted (60_exceptions.md R148, 40_cycle.md R72). -/
def Session.cycle (c : Session) : SessionResult :=
  match c.state with
  | none => .refused .notInThisPhase
  | some s =>
    match step s with
    | .next t => .next (.running t)
    | .fault r => .fault r
    | .refused r => .refused r

/-- One host operation on a session (60_exceptions.md R148). -/
def EnvOp.apply (op : EnvOp) (c : Session) : SessionResult :=
  match op with
  | .init => c.initCore
  | .load image => c.load image
  | .setKeys k => c.between (fun s => s.setKeys k)
  | .tick => c.between State.tick
  | .cycle => c.cycle
  | .readState => c.between id

/-- A run: host operations one after another, ending at the first that has no next state
(60_exceptions.md R149). -/
def runEnv : List EnvOp → Session → SessionResult
  | [], c => .next c
  | op :: ops, c =>
    match op.apply c with
    | .next d => runEnv ops d
    | .fault r => .fault r
    | .refused r => .refused r

end Sys2Proof.Machine
end

