-- ==== Sys2Proof/Safety.lean ====
section
/-! DEFINITION. The words claims are stated in: the parts of a state, what it is to change only some of them, a
fatal fault taken, the cells a sprite covers, and the invariant of the machine. -/

namespace Sys2Proof.Machine

/-- Each smallest part of the state that an instruction may change or leave alone. -/
inductive Part where
  | v (x : Reg)
  | i
  | pc
  | sp
  | stack (j : Fin 16)
  | dt
  | st
  | cell (r : Fin 32) (c : Fin 64)
  | key (k : Key)
  | mem (addr : Nat)
  | halted
  | faultCode
  | faultAddr
  | reports
  | draws
deriving DecidableEq, Repr

/-- Two states agree on a part. Memory is compared by the model's read of one byte. -/
def Part.agrees (s t : State) : Part → Prop
  | .v x => t.getV x = s.getV x
  | .i => t.i = s.i
  | .pc => t.pc = s.pc
  | .sp => t.sp = s.sp
  | .stack j => t.stack[j] = s.stack[j]
  | .dt => t.dt = s.dt
  | .st => t.st = s.st
  | .cell r c => t.disp.cell r c = s.disp.cell r c
  | .key k => t.key[k] = s.key[k]
  | .mem addr => t.mem.read addr = s.mem.read addr
  | .halted => t.halted = s.halted
  | .faultCode => t.faultCode = s.faultCode
  | .faultAddr => t.faultAddr = s.faultAddr
  | .reports => t.reports = s.reports
  | .draws => t.draws = s.draws

/-- Going from s to t changes no part of the state but those named: every other register, flag, stack entry,
display cell, latch, byte of memory and piece of run status is as it was. -/
def ChangesOnly (s t : State) (touched : Part → Prop) : Prop := ∀ p, ¬ touched p → p.agrees s t

/-- The three items of the run status, which alone `raise Fatal` writes (10_state.md R28, 60_exceptions.md R125). -/
def Part.isStatus (p : Part) : Prop := p = .halted ∨ p = .faultCode ∨ p = .faultAddr

/-- From s, the fatal fault with this code and address has been taken in t, and nothing else is changed
(60_exceptions.md R125, R132). -/
def FatalTaken (s t : State) (code : FaultCode) (addr : Word) : Prop :=
  t.halted = true ∧ t.faultCode = some code ∧ t.faultAddr = addr ∧ ChangesOnly s t Part.isStatus

/-- The sprite of `DRW Vx, Vy, n` has a set bit whose target cell is (r, c): the bit of row `row` and column
`col` lands at ((py + row) mod 32, (px + col) mod 64) (44_display.md R113, R114). -/
def SpriteCovers (s : State) (x y : Reg) (n : Fin 16) (r : Fin 32) (c : Fin 64) : Prop :=
  ∃ row < n.val, ∃ col < 8,
    ((s.mem.read (s.i.toNat + row)).toNat / 2 ^ (7 - col)) % 2 = 1 ∧
    r.val = ((s.getV y).toNat % 32 + row) % 32 ∧ c.val = ((s.getV x).toNat % 64 + col) % 64

/-- How many of the `len` opcodes from `lo` on are UNKNOWN (30_encoding.md R65). -/
def unknownCount (lo len : Nat) : Nat :=
  (List.range' lo len).countP (fun n => (decodeWord (BitVec.ofNat 16 n)).isNone)

/-- The invariant of the machine, in states that a run reaches: memory is in canonical form (log 1); pc never
exceeds 0x10FE and a pushed return address never exceeds 0x1000 (10_state.md R21, 92_eei_decisions.md D16); the
run status is consistent: a core is halted exactly when a fault code is recorded, and until then the fault
address is 0 (10_state.md R28). The range of sp (10_state.md R22) is in its type. -/
structure State.Inv (s : State) : Prop where
  memory : s.mem.wf
  pcBound : s.pc.toNat ≤ 0x10FE
  stackBound : ∀ j : Fin 16, (s.stack[j]).toNat ≤ 0x1000
  status : s.halted = s.faultCode.isSome
  noFault : s.faultCode = none → s.faultAddr = 0#16

/-- A state that can take a cycle which fetches: not halted, and pc with two bytes left in memory
(40_cycle.md R72, R73). -/
def State.CanFetch (s : State) : Prop := s.halted = false ∧ s.pc.toNat ≤ 4094

end Sys2Proof.Machine
end

