-- ==== Sys2Proof/Certificates/Slice0/Obligations.lean ====
section
/-! DEFINITION. The statements for the provers, from the numbered rules of the spec. `exec i s` is the execute step
of an instruction, which sees pc = a + 2 (40_cycle.md R75); where a rule names the fetch address a, the statement
says `s.pc = a + 2`. An opcode is written from the spec's own pattern, as a number. -/

open Sys2Proof Sys2Proof.Machine

/-! ### Decoding -/

/-- The words of 95_test_vectors.md W9, and one more word of each group, decode to the instructions they stand
for. -/
def Obligations.SampleWordsDecode : Prop :=
  decodeWord 0x600A#16 = some (.ldImm 0 0x0A#8) ∧ decodeWord 0x7005#16 = some (.addImm 0 0x05#8) ∧
  decodeWord 0x1202#16 = some (.jp 0x202#12) ∧ decodeWord 0xA20A#16 = some (.ldI 0x20A#12) ∧
  decodeWord 0xD005#16 = some (.drw 0 0 5) ∧ decodeWord 0x00E0#16 = some .cls ∧
  decodeWord 0x00EE#16 = some .ret ∧ decodeWord 0x00E1#16 = some (.sys 0x0E1#12) ∧
  decodeWord 0x8127#16 = some (.subn 1 2) ∧ decodeWord 0xE2A1#16 = some (.sknp 2) ∧
  decodeWord 0xF265#16 = some (.loadRegs 2) ∧ decodeWord 0x800F#16 = none

/-- Decode and encode agree: every well-formed instruction, at every value of its fields, is what its own bytes
decode to, and the bytes after them are left. -/
def Obligations.DecodeInvertsEncode : Prop :=
  ∀ i : Instr, i.wf = true →
    decodeWord (encode i) = some i ∧ ∀ rest : List Byte, decodeBytes (encodeBytes i ++ rest) = .ok i rest

/-- Every word that decodes is the encoding of what it decodes to, which is well-formed: no bit of a word is
dropped. -/
def Obligations.EncodeInvertsDecode : Prop :=
  ∀ (op : Word) (i : Instr), decodeWord op = some i → i.wf = true ∧ encode i = op

/-- R63, against the opcode map of R64: an opcode either matches no row and is UNKNOWN, or it matches exactly one
of the 35 rows and decodes to an instruction of that row. -/
def Obligations.DecodeFollowsOpcodeMap : Prop :=
  opcodeMap.length = 35 ∧ opcodeMap.Nodup ∧
  ∀ op : Word,
    (decodeWord op = none ∧ ∀ row ∈ opcodeMap, row.matches op = false) ∨
    (∃ i, decodeWord op = some i ∧ i.row ∈ opcodeMap ∧ i.row.matches op = true ∧
      ∀ row ∈ opcodeMap, row.matches op = true → row = i.row)

/-- R65: the unknown opcodes are those that match no row of the opcode map, and by group they are the listed ones,
with the count of each group, of all, and of the defined opcodes. -/
def Obligations.UnknownOpcodesAreTheListedOnes : Prop :=
  (∀ op : Word, decodeWord op = none ↔ ∀ row ∈ opcodeMap, row.matches op = false) ∧
  (∀ op : Word, decodeWord op = none ↔
    (op.toNat / 0x1000 = 0x5 ∧ op.toNat % 0x10 ≠ 0) ∨
    (op.toNat / 0x1000 = 0x9 ∧ op.toNat % 0x10 ≠ 0) ∨
    (op.toNat / 0x1000 = 0x8 ∧ op.toNat % 0x10 ∈ [0x8, 0x9, 0xA, 0xB, 0xC, 0xD, 0xF]) ∨
    (op.toNat / 0x1000 = 0xE ∧ op.toNat % 0x100 ∉ [0x9E, 0xA1]) ∨
    (op.toNat / 0x1000 = 0xF ∧
      op.toNat % 0x100 ∉ [0x07, 0x0A, 0x15, 0x18, 0x1E, 0x29, 0x33, 0x55, 0x65])) ∧
  unknownCount 0x5000 0x1000 = 3840 ∧ unknownCount 0x9000 0x1000 = 3840 ∧ unknownCount 0x8000 0x1000 = 1792 ∧
  unknownCount 0xE000 0x1000 = 4064 ∧ unknownCount 0xF000 0x1000 = 3952 ∧ unknownCount 0 0x10000 = 17488 ∧
  65536 - unknownCount 0 0x10000 = 48048

/-- R68: the y field of SHR and SHL and the nnn of SYS do not matter. -/
def Obligations.IgnoredFieldsDoNotMatter : Prop :=
  ∀ (s : State) (x y y' : Reg) (nnn nnn' : Addr),
    exec (.shr x y) s = exec (.shr x y') s ∧ exec (.shl x y) s = exec (.shl x y') s ∧
    exec (.sys nnn) s = exec (.sys nnn') s

/-! ### The cycle -/

/-- R71, R74 to R77: where a fetch is possible and the big-endian word at pc decodes to i, a step is the meaning
of i on the state with pc advanced by 2, which does not wrap. -/
def Obligations.StepRunsTheDecodedInstruction : Prop :=
  ∀ (s : State) (op : Word) (i : Instr), s.CanFetch →
    op.toNat = (s.mem.read s.pc.toNat).toNat * 256 + (s.mem.read (s.pc.toNat + 1)).toNat →
    decodeWord op = some i →
    step s = exec i (s.setPc (s.pc + 2#16)) ∧ (s.pc + 2#16).toNat = s.pc.toNat + 2

/-- R78, R135: an unknown opcode is reported with its fetch address, and nothing changes but pc. -/
def Obligations.UnknownOpcodeIsReportedAndSkipped : Prop :=
  ∀ (s : State) (op : Word), s.CanFetch →
    op.toNat = (s.mem.read s.pc.toNat).toNat * 256 + (s.mem.read (s.pc.toNat + 1)).toNat →
    decodeWord op = none →
    ∃ t, step s = .next t ∧ t.pc = s.pc + 2#16 ∧ t.reports = s.reports ++ [⟨op, s.pc⟩] ∧
      ChangesOnly s t (fun p => p = .pc ∨ p = .reports)

/-- R73, R127: above 4094 the fatal check fires, and nothing but the run status changes. -/
def Obligations.PcOverrunIsFatal : Prop :=
  ∀ s : State, s.halted = false → s.pc.toNat > 4094 →
    ∃ t, step s = .next t ∧ FatalTaken s t .pcOverrun s.pc

/-- R72: a halted core takes no cycle. That the absent step is the outcome `fault halted` is the model's choice
(log 5). -/
def Obligations.HaltedCoreTakesNoStep : Prop := ∀ s : State, s.halted = true → step s = .fault .halted

/-- Every instruction and every cycle of a core that is not halted answers a next state: no operand value, no
word and no address stops the model. -/
def Obligations.EveryCycleCompletes : Prop :=
  (∀ (i : Instr) (s : State), ∃ t, exec i s = .next t) ∧
  ∀ s : State, s.halted = false → ∃ t, step s = .next t

/-- R132: a fault of an instruction leaves everything as the fetch advance left it, PC_OVERRUN leaves everything
as before the cycle, and faultAddr is the fetch address, or the unfetchable pc. -/
def Obligations.FaultsArePrecise : Prop :=
  ∀ s t : State, s.halted = false → step s = .next t → t.halted = true →
    t.faultAddr = s.pc ∧
    (s.pc.toNat ≤ 4094 → t.pc = s.pc + 2#16 ∧ ChangesOnly s t (fun p => p = .pc ∨ p.isStatus)) ∧
    (s.pc.toNat > 4094 → ChangesOnly s t Part.isStatus)

/-- R126, R128 to R131, R133: an instruction halts the core exactly on the listed causes, and each cause records its
code. -/
def Obligations.FaultsHaveTheListedCauses : Prop :=
  ∀ (i : Instr) (s t : State), s.halted = false → exec i s = .next t →
    (t.halted = true ↔
      ((∃ nnn, i = .call nnn) ∧ s.sp.val = 16) ∨
      (i = .ret ∧ s.sp.val = 0) ∨
      (∃ x y n, i = .drw x y n ∧ n.val > 0 ∧ s.i.toNat + (n.val - 1) > 0xFFF) ∨
      ((∃ x, i = .ldB x) ∧ s.i.toNat + 2 > 0xFFF) ∨
      (∃ x, (i = .storeRegs x ∨ i = .loadRegs x) ∧ s.i.toNat + x.val > 0xFFF) ∨
      (∃ x, (i = .skp x ∨ i = .sknp x) ∧ (s.getV x).toNat > 0xF)) ∧
    ((∃ nnn, i = .call nnn) → s.sp.val = 16 → t.faultCode = some .stackOverflow) ∧
    (i = .ret → s.sp.val = 0 → t.faultCode = some .stackUnderflow) ∧
    (∀ x y n, i = .drw x y n → n.val > 0 → s.i.toNat + (n.val - 1) > 0xFFF → t.faultCode = some .memRange) ∧
    ((∃ x, i = .ldB x) → s.i.toNat + 2 > 0xFFF → t.faultCode = some .memRange) ∧
    (∀ x, i = .storeRegs x ∨ i = .loadRegs x → s.i.toNat + x.val > 0xFFF → t.faultCode = some .memRange) ∧
    (∀ x, i = .skp x ∨ i = .sknp x → (s.getV x).toNat > 0xF → t.faultCode = some .keyRange)

/-! ### Reset, the invariant and the host -/

/-- R34: the value of each piece of state after Initialize; of the font, the five bytes the source attests (R151). -/
def Obligations.ResetLeavesTheListedValues : Prop :=
  let s := State.reset
  (∀ x : Reg, s.getV x = 0#8) ∧ s.i = 0#16 ∧ s.pc = 0x200#16 ∧ s.sp.val = 0 ∧
  (∀ j : Fin 16, s.stack[j] = 0#16) ∧ s.dt = 0#8 ∧ s.st = 0#8 ∧ (∀ r c, s.disp.cell r c = false) ∧
  (∀ k : Key, s.key[k] = false) ∧ s.halted = false ∧ s.faultCode = none ∧ s.faultAddr = 0#16 ∧
  (∀ a, a < 0x050 ∨ (0x0A0 ≤ a ∧ a ≤ 0xFFF) → s.mem.read a = 0#8) ∧
  (∀ j, j < 80 → s.mem.read (0x050 + j) = Config.fontByte j) ∧
  (s.mem.read 0x050 = 0xF0#8 ∧ s.mem.read 0x051 = 0x90#8 ∧ s.mem.read 0x052 = 0x90#8 ∧
    s.mem.read 0x053 = 0x90#8 ∧ s.mem.read 0x054 = 0xF0#8)

/-- The invariant holds after Initialize. -/
def Obligations.ResetMeetsTheInvariant : Prop := State.reset.Inv

/-- Every cycle keeps the invariant, from every state that meets it: canonical memory, pc ≤ 0x10FE (R21), stacked
addresses ≤ 0x1000, a consistent run status (R28). -/
def Obligations.StepKeepsTheInvariant : Prop := ∀ s t : State, s.Inv → step s = .next t → t.Inv

/-- Every state that any run of host operations reaches from before Initialize meets the invariant, whatever the
image, the keys, the ticks and the draws. -/
def Obligations.EveryRunKeepsTheInvariant : Prop :=
  ∀ (ops : List EnvOp) (c : Session) (s : State), runEnv ops .off = .next c → c.state = some s → s.Inv

/-- R140: a tick decrements each timer that is above 0 and changes nothing else. That a timer at 0 stays at 0 is
marked general knowledge in the spec (log 7). -/
def Obligations.TickDecrementsTheTimers : Prop :=
  ∀ s : State, s.tick.dt.toNat = s.dt.toNat - 1 ∧ s.tick.st.toNat = s.st.toNat - 1 ∧
    ChangesOnly s s.tick (fun p => p = .dt ∨ p = .st)

/-- R142: SetKeys overwrites all sixteen latches and nothing else. -/
def Obligations.SetKeysOverwritesTheLatches : Prop :=
  ∀ (s : State) (k : Vector Bool 16), (∀ j : Key, (s.setKeys k).key[j] = k[j]) ∧
    ChangesOnly s (s.setKeys k) (fun p => ∃ j, p = .key j)

/-- R152: Load copies an image of at most 3584 bytes verbatim to 0x200 and on, touching nothing else, and refuses
a longer one. -/
def Obligations.LoadCopiesTheImage : Prop :=
  ∀ (s : State) (image : List Byte),
    (image.length ≤ 3584 → ∃ t, s.load image = .next t ∧
      (∀ j, ∀ h : j < image.length, t.mem.read (0x200 + j) = image[j]) ∧
      ChangesOnly s t (fun p => ∃ j < image.length, p = .mem (0x200 + j))) ∧
    (image.length > 3584 → s.load image = .refused .imageTooLarge)

/-- R148, R153, R154: in every run that goes through, Initialize comes first and only once, and Load at most once
and before the first Cycle. -/
def Obligations.LifecycleIsInOrder : Prop :=
  ∀ (ops : List EnvOp) (c : Session), runEnv ops .off = .next c →
    ops = [] ∨ ∃ rest, ops = .init :: rest ∧ .init ∉ rest ∧
      ∀ before image after, rest = before ++ .load image :: after →
        .cycle ∉ before ∧ ∀ other, .load other ∉ before

/-! ### Memory -/

/-- R38: the two primitives on one byte. -/
def Obligations.MemoryPrimitives : Prop :=
  ∀ (s : State) (addr : Nat) (b : Byte),
    (addr > 0xFFF → s.memRead addr = none ∧ s.memWrite addr b = none) ∧
    (addr ≤ 0xFFF → s.memRead addr = some (s.mem.read addr) ∧
      ∃ t, s.memWrite addr b = some t ∧ t.memRead addr = some b ∧ ChangesOnly s t (fun p => p = .mem addr))

/-- R39: a block through I is checked at its highest address before any access: out of range nothing is read or
written; in range every byte read is MemRead of its address, and the bytes written stand where they belong. -/
def Obligations.BlocksAreCheckedWhole : Prop :=
  ∀ (s : State) (len : Nat) (bs : List Byte),
    (len > 0 → s.i.toNat + (len - 1) > 0xFFF → s.readBlock len = none) ∧
    (len = 0 ∨ s.i.toNat + (len - 1) ≤ 0xFFF → ∃ out, s.readBlock len = some out ∧ out.length = len ∧
      ∀ k, k < len → out[k]? = s.memRead (s.i.toNat + k)) ∧
    (bs.length > 0 → s.i.toNat + (bs.length - 1) > 0xFFF → s.writeBlock bs = none) ∧
    (bs.length = 0 ∨ s.i.toNat + (bs.length - 1) ≤ 0xFFF → ∃ t, s.writeBlock bs = some t ∧
      (∀ k, k < bs.length → t.memRead (s.i.toNat + k) = bs[k]?) ∧
      ChangesOnly s t (fun p => ∃ k < bs.length, p = .mem (s.i.toNat + k)))

/-- The parts of a state are all of it: with memory in canonical form, a state that agrees on every part is the
same state. So "changes only" leaves nothing unsaid. -/
def Obligations.PartsDetermineTheState : Prop :=
  ∀ s t : State, s.mem.wf → t.mem.wf → ChangesOnly s t (fun _ => False) → t = s

/-! ### Control flow -/

/-- R81: SYS does nothing. -/
def Obligations.SysIsIgnored : Prop :=
  ∀ (s : State) (nnn : Addr),
    (nnn ≠ 0x0E0#12 → nnn ≠ 0x0EE#12 → decodeWord (BitVec.ofNat 16 nnn.toNat) = some (.sys nnn)) ∧
    ∃ t, exec (.sys nnn) s = .next t ∧ ChangesOnly s t (fun _ => False)

/-- R82: JP sets pc to the 12-bit target. -/
def Obligations.JpSetsPc : Prop :=
  ∀ (s : State) (nnn : Addr), decodeWord (BitVec.ofNat 16 (0x1000 + nnn.toNat)) = some (.jp nnn) ∧
    ∃ t, exec (.jp nnn) s = .next t ∧ t.pc.toNat = nnn.toNat ∧ ChangesOnly s t (fun p => p = .pc)

/-- R83, R128: CALL pushes the address after it and jumps, or takes STACK_OVERFLOW when the stack is full. -/
def Obligations.CallPushesOrOverflows : Prop :=
  ∀ (s : State) (nnn : Addr) (a : Word), s.pc = a + 2#16 →
    decodeWord (BitVec.ofNat 16 (0x2000 + nnn.toNat)) = some (.call nnn) ∧
    (∀ h : s.sp.val < 16, ∃ t, exec (.call nnn) s = .next t ∧ t.stack[s.sp.val] = a + 2#16 ∧
      t.sp.val = s.sp.val + 1 ∧ t.pc.toNat = nnn.toNat ∧
      ChangesOnly s t (fun p => p = .pc ∨ p = .sp ∨ p = .stack ⟨s.sp.val, h⟩)) ∧
    (s.sp.val = 16 → ∃ t, exec (.call nnn) s = .next t ∧ FatalTaken s t .stackOverflow a)

/-- R84, R129: RET pops the address on top and goes there, or takes STACK_UNDERFLOW when the stack is empty. -/
def Obligations.RetPopsOrUnderflows : Prop :=
  ∀ (s : State) (a : Word), s.pc = a + 2#16 →
    decodeWord 0x00EE#16 = some .ret ∧
    (∀ h : 0 < s.sp.val, ∃ t, exec .ret s = .next t ∧ t.sp.val = s.sp.val - 1 ∧
      t.pc = s.stack[s.sp.val - 1] ∧ ChangesOnly s t (fun p => p = .pc ∨ p = .sp)) ∧
    (s.sp.val = 0 → ∃ t, exec .ret s = .next t ∧ FatalTaken s t .stackUnderflow a)

/-- A RET right after a CALL, wherever the target is, restores pc to the address after the CALL and the stack
pointer (R84; 95_test_vectors.md W2). -/
def Obligations.RetUndoesCall : Prop :=
  ∀ (s t : State) (nnn : Addr) (target : Word), s.sp.val < 16 → exec (.call nnn) s = .next t →
    ∃ u, exec .ret (t.setPc target) = .next u ∧ u.pc = s.pc ∧ u.sp = s.sp ∧
      ChangesOnly s u (fun p => ∃ j : Fin 16, j.val = s.sp.val ∧ p = .stack j)

/-- R85: JP V0 adds V0, and only V0, to the target, without masking. -/
def Obligations.JpV0AddsV0 : Prop :=
  ∀ (s : State) (nnn : Addr), decodeWord (BitVec.ofNat 16 (0xB000 + nnn.toNat)) = some (.jpV0 nnn) ∧
    ∃ t, exec (.jpV0 nnn) s = .next t ∧ t.pc.toNat = (s.getV 0).toNat + nnn.toNat ∧
      ChangesOnly s t (fun p => p = .pc)

/-- R86 to R89: the four compare-and-skip instructions; with another low nibble the register forms are unknown. -/
def Obligations.SkipsCompareAndAdvance : Prop :=
  ∀ (s : State) (x y : Reg) (kk : Byte),
    (decodeWord (BitVec.ofNat 16 (0x3000 + 0x100 * x.val + kk.toNat)) = some (.seImm x kk) ∧
      ∃ t, exec (.seImm x kk) s = .next t ∧ t.pc = (if s.getV x = kk then s.pc + 2#16 else s.pc) ∧
        ChangesOnly s t (fun p => p = .pc)) ∧
    (decodeWord (BitVec.ofNat 16 (0x4000 + 0x100 * x.val + kk.toNat)) = some (.sneImm x kk) ∧
      ∃ t, exec (.sneImm x kk) s = .next t ∧ t.pc = (if s.getV x ≠ kk then s.pc + 2#16 else s.pc) ∧
        ChangesOnly s t (fun p => p = .pc)) ∧
    (decodeWord (BitVec.ofNat 16 (0x5000 + 0x100 * x.val + 0x10 * y.val)) = some (.seReg x y) ∧
      ∃ t, exec (.seReg x y) s = .next t ∧ t.pc = (if s.getV x = s.getV y then s.pc + 2#16 else s.pc) ∧
        ChangesOnly s t (fun p => p = .pc)) ∧
    (decodeWord (BitVec.ofNat 16 (0x9000 + 0x100 * x.val + 0x10 * y.val)) = some (.sneReg x y) ∧
      ∃ t, exec (.sneReg x y) s = .next t ∧ t.pc = (if s.getV x ≠ s.getV y then s.pc + 2#16 else s.pc) ∧
        ChangesOnly s t (fun p => p = .pc)) ∧
    (∀ n : Fin 16, n ≠ 0 →
      decodeWord (BitVec.ofNat 16 (0x5000 + 0x100 * x.val + 0x10 * y.val + n.val)) = none ∧
      decodeWord (BitVec.ofNat 16 (0x9000 + 0x100 * x.val + 0x10 * y.val + n.val)) = none)

/-! ### Register loads, arithmetic and logic -/

/-- R92, R94: the two register loads. -/
def Obligations.LoadsSetTheRegister : Prop :=
  ∀ (s : State) (x y : Reg) (kk : Byte),
    (decodeWord (BitVec.ofNat 16 (0x6000 + 0x100 * x.val + kk.toNat)) = some (.ldImm x kk) ∧
      ∃ t, exec (.ldImm x kk) s = .next t ∧ t.getV x = kk ∧ ChangesOnly s t (fun p => p = .v x)) ∧
    (decodeWord (BitVec.ofNat 16 (0x8000 + 0x100 * x.val + 0x10 * y.val)) = some (.ldReg x y) ∧
      ∃ t, exec (.ldReg x y) s = .next t ∧ t.getV x = s.getV y ∧ ChangesOnly s t (fun p => p = .v x))

/-- R93: ADD Vx, kk wraps modulo 256 and writes no flag. -/
def Obligations.AddImmediateWrapsWithoutFlag : Prop :=
  ∀ (s : State) (x : Reg) (kk : Byte),
    decodeWord (BitVec.ofNat 16 (0x7000 + 0x100 * x.val + kk.toNat)) = some (.addImm x kk) ∧
    ∃ t, exec (.addImm x kk) s = .next t ∧ (t.getV x).toNat = ((s.getV x).toNat + kk.toNat) % 256 ∧
      ChangesOnly s t (fun p => p = .v x)

/-- Adding kk and then (256 - kk) mod 256 to one register leaves the whole state as it was (95_test_vectors.md W1). -/
def Obligations.AddImmediateClosure : Prop :=
  ∀ (s : State) (x : Reg) (kk kk' : Byte), kk'.toNat = (256 - kk.toNat) % 256 →
    ∃ t u, exec (.addImm x kk) s = .next t ∧ exec (.addImm x kk') t = .next u ∧ u = s

/-- R95 to R97: the three logic operations, which do not touch VF. -/
def Obligations.LogicIsBitwiseWithoutFlag : Prop :=
  ∀ (s : State) (x y : Reg),
    (decodeWord (BitVec.ofNat 16 (0x8001 + 0x100 * x.val + 0x10 * y.val)) = some (.orReg x y) ∧
      ∃ t, exec (.orReg x y) s = .next t ∧ t.getV x = s.getV x ||| s.getV y ∧
        ChangesOnly s t (fun p => p = .v x)) ∧
    (decodeWord (BitVec.ofNat 16 (0x8002 + 0x100 * x.val + 0x10 * y.val)) = some (.andReg x y) ∧
      ∃ t, exec (.andReg x y) s = .next t ∧ t.getV x = s.getV x &&& s.getV y ∧
        ChangesOnly s t (fun p => p = .v x)) ∧
    (decodeWord (BitVec.ofNat 16 (0x8003 + 0x100 * x.val + 0x10 * y.val)) = some (.xorReg x y) ∧
      ∃ t, exec (.xorReg x y) s = .next t ∧ t.getV x = s.getV x ^^^ s.getV y ∧
        ChangesOnly s t (fun p => p = .v x))

/-- R98: ADD Vx, Vy wraps, and VF is the carry, also when x is VF. -/
def Obligations.AddSetsCarry : Prop :=
  ∀ (s : State) (x y : Reg),
    decodeWord (BitVec.ofNat 16 (0x8004 + 0x100 * x.val + 0x10 * y.val)) = some (.addReg x y) ∧
    ∃ t, exec (.addReg x y) s = .next t ∧
      (x ≠ VF → (t.getV x).toNat = ((s.getV x).toNat + (s.getV y).toNat) % 256) ∧
      t.getV VF = (if (s.getV x).toNat + (s.getV y).toNat > 255 then 1#8 else 0#8) ∧
      ChangesOnly s t (fun p => p = .v x ∨ p = .v VF)

/-- R99 and R101: the two subtractions, and VF, which is 1 only when strictly no borrow and not equal, also when
x is VF. -/
def Obligations.SubtractionsSetStrictNotBorrow : Prop :=
  ∀ (s : State) (x y : Reg),
    (decodeWord (BitVec.ofNat 16 (0x8005 + 0x100 * x.val + 0x10 * y.val)) = some (.sub x y) ∧
      ∃ t, exec (.sub x y) s = .next t ∧
        (x ≠ VF → ((t.getV x).toNat : Int) = (((s.getV x).toNat : Int) - (s.getV y).toNat) % 256) ∧
        t.getV VF = (if (s.getV x).toNat > (s.getV y).toNat then 1#8 else 0#8) ∧
        ChangesOnly s t (fun p => p = .v x ∨ p = .v VF)) ∧
    (decodeWord (BitVec.ofNat 16 (0x8007 + 0x100 * x.val + 0x10 * y.val)) = some (.subn x y) ∧
      ∃ t, exec (.subn x y) s = .next t ∧
        (x ≠ VF → ((t.getV x).toNat : Int) = (((s.getV y).toNat : Int) - (s.getV x).toNat) % 256) ∧
        t.getV VF = (if (s.getV y).toNat > (s.getV x).toNat then 1#8 else 0#8) ∧
        ChangesOnly s t (fun p => p = .v x ∨ p = .v VF))

/-- R100 and R102: the two shifts, of Vx whatever y is, and VF, the bit shifted out, also when x is VF. -/
def Obligations.ShiftsSetTheBitShiftedOut : Prop :=
  ∀ (s : State) (x y : Reg),
    (decodeWord (BitVec.ofNat 16 (0x8006 + 0x100 * x.val + 0x10 * y.val)) = some (.shr x y) ∧
      ∃ t, exec (.shr x y) s = .next t ∧ (x ≠ VF → (t.getV x).toNat = (s.getV x).toNat / 2) ∧
        (t.getV VF).toNat = (s.getV x).toNat % 2 ∧ ChangesOnly s t (fun p => p = .v x ∨ p = .v VF)) ∧
    (decodeWord (BitVec.ofNat 16 (0x800E + 0x100 * x.val + 0x10 * y.val)) = some (.shl x y) ∧
      ∃ t, exec (.shl x y) s = .next t ∧ (x ≠ VF → (t.getV x).toNat = 2 * (s.getV x).toNat % 256) ∧
        (t.getV VF).toNat = (s.getV x).toNat / 128 ∧ ChangesOnly s t (fun p => p = .v x ∨ p = .v VF))

/-- R103: RND writes a drawn byte masked by kk, so only bits of kk can be set. The drawn byte is the model's free
stream at the model's own counter, which advances (log 3); the statement holds whatever its value. -/
def Obligations.RndMasksADraw : Prop :=
  ∀ (s : State) (x : Reg) (kk : Byte),
    decodeWord (BitVec.ofNat 16 (0xC000 + 0x100 * x.val + kk.toNat)) = some (.rnd x kk) ∧
    ∃ t, exec (.rnd x kk) s = .next t ∧ t.getV x = Config.rndByte s.draws &&& kk ∧
      (∀ j, kk.getLsbD j = false → (t.getV x).getLsbD j = false) ∧ t.draws = s.draws + 1 ∧
      ChangesOnly s t (fun p => p = .v x ∨ p = .draws)

/-! ### Index register and memory instructions -/

/-- R105 to R107: the three writes of the index register. -/
def Obligations.IndexIsLoadedAddedAndPointed : Prop :=
  ∀ (s : State) (x : Reg) (nnn : Addr),
    (decodeWord (BitVec.ofNat 16 (0xA000 + nnn.toNat)) = some (.ldI nnn) ∧
      ∃ t, exec (.ldI nnn) s = .next t ∧ t.i.toNat = nnn.toNat ∧ ChangesOnly s t (fun p => p = .i)) ∧
    (decodeWord (BitVec.ofNat 16 (0xF01E + 0x100 * x.val)) = some (.addI x) ∧
      ∃ t, exec (.addI x) s = .next t ∧ t.i.toNat = (s.i.toNat + (s.getV x).toNat) % 65536 ∧
        ChangesOnly s t (fun p => p = .i)) ∧
    (decodeWord (BitVec.ofNat 16 (0xF029 + 0x100 * x.val)) = some (.ldF x) ∧
      ∃ t, exec (.ldF x) s = .next t ∧ t.i.toNat = 0x050 + 5 * (s.getV x).toNat ∧
        ChangesOnly s t (fun p => p = .i))

/-- R108, R130: the decimal digits at I, I+1 and I+2, or MEM_RANGE with nothing written. -/
def Obligations.BcdStoresTheDigits : Prop :=
  ∀ (s : State) (x : Reg) (a : Word), s.pc = a + 2#16 →
    decodeWord (BitVec.ofNat 16 (0xF033 + 0x100 * x.val)) = some (.ldB x) ∧
    (s.i.toNat + 2 ≤ 0xFFF → ∃ t, exec (.ldB x) s = .next t ∧
      (t.mem.read s.i.toNat).toNat = (s.getV x).toNat / 100 ∧
      (t.mem.read (s.i.toNat + 1)).toNat = (s.getV x).toNat / 10 % 10 ∧
      (t.mem.read (s.i.toNat + 2)).toNat = (s.getV x).toNat % 10 ∧
      ChangesOnly s t (fun p => ∃ k < 3, p = .mem (s.i.toNat + k))) ∧
    (s.i.toNat + 2 > 0xFFF → ∃ t, exec (.ldB x) s = .next t ∧ FatalTaken s t .memRange a)

/-- R109, R130: V0..Vx are stored at I..I+x and I keeps its value, or MEM_RANGE with nothing written. -/
def Obligations.StoreRegistersFillsTheBlock : Prop :=
  ∀ (s : State) (x : Reg) (a : Word), s.pc = a + 2#16 →
    decodeWord (BitVec.ofNat 16 (0xF055 + 0x100 * x.val)) = some (.storeRegs x) ∧
    (s.i.toNat + x.val ≤ 0xFFF → ∃ t, exec (.storeRegs x) s = .next t ∧
      (∀ k : Reg, k ≤ x → t.mem.read (s.i.toNat + k.val) = s.getV k) ∧
      ChangesOnly s t (fun p => ∃ k ≤ x.val, p = .mem (s.i.toNat + k))) ∧
    (s.i.toNat + x.val > 0xFFF → ∃ t, exec (.storeRegs x) s = .next t ∧ FatalTaken s t .memRange a)

/-- R110, R130: V0..Vx are loaded from I..I+x and I keeps its value, or MEM_RANGE with nothing written. -/
def Obligations.LoadRegistersReadsTheBlock : Prop :=
  ∀ (s : State) (x : Reg) (a : Word), s.pc = a + 2#16 →
    decodeWord (BitVec.ofNat 16 (0xF065 + 0x100 * x.val)) = some (.loadRegs x) ∧
    (s.i.toNat + x.val ≤ 0xFFF → ∃ t, exec (.loadRegs x) s = .next t ∧
      (∀ k : Reg, k ≤ x → t.getV k = s.mem.read (s.i.toNat + k.val)) ∧
      ChangesOnly s t (fun p => ∃ k ≤ x, p = .v k)) ∧
    (s.i.toNat + x.val > 0xFFF → ∃ t, exec (.loadRegs x) s = .next t ∧ FatalTaken s t .memRange a)

/-- Storing V0..Vx and loading them back, with I and memory kept in between, brings back every stored register,
whatever the registers held in between (R109, R110). -/
def Obligations.LoadBringsBackWhatStorePut : Prop :=
  ∀ (s t u w : State) (x : Reg), s.i.toNat + x.val ≤ 0xFFF → exec (.storeRegs x) s = .next t →
    u.i = t.i → u.mem = t.mem → exec (.loadRegs x) u = .next w → ∀ k : Reg, k ≤ x → w.getV k = s.getV k

/-- R52, R157: with I at the next instruction, LD [I], Vx overwrites the word that is fetched next. -/
def Obligations.StoredCodeIsFetchedNext : Prop :=
  ∀ (s t : State) (x : Reg), 1 ≤ x.val → s.i = s.pc → s.i.toNat + x.val ≤ 0xFFF →
    exec (.storeRegs x) s = .next t → t.fetchWord.toNat = (s.getV 0).toNat * 256 + (s.getV 1).toNat

/-! ### The display -/

/-- R112: CLS turns every cell off and changes nothing else. -/
def Obligations.ClsClearsTheDisplay : Prop :=
  ∀ s : State, decodeWord 0x00E0#16 = some .cls ∧
    ∃ t, exec .cls s = .next t ∧ (∀ r c, t.disp.cell r c = false) ∧
      ChangesOnly s t (fun p => ∃ r c, p = .cell r c)

/-- R113 to R115, R130: DRW toggles exactly the cells its sprite covers, wrapping on both axes, and VF is 1
exactly when one of them was on; or MEM_RANGE with nothing written. -/
def Obligations.DrwTogglesTheCoveredCells : Prop :=
  ∀ (s : State) (x y : Reg) (n : Fin 16) (a : Word), s.pc = a + 2#16 →
    decodeWord (BitVec.ofNat 16 (0xD000 + 0x100 * x.val + 0x10 * y.val + n.val)) = some (.drw x y n) ∧
    (n.val = 0 ∨ s.i.toNat + (n.val - 1) ≤ 0xFFF → ∃ t, exec (.drw x y n) s = .next t ∧
      (∀ r c, SpriteCovers s x y n r c → t.disp.cell r c = !(s.disp.cell r c)) ∧
      ((∃ r c, SpriteCovers s x y n r c ∧ s.disp.cell r c = true) → t.getV VF = 1#8) ∧
      (¬ (∃ r c, SpriteCovers s x y n r c ∧ s.disp.cell r c = true) → t.getV VF = 0#8) ∧
      ChangesOnly s t (fun p => p = .v VF ∨ ∃ r c, SpriteCovers s x y n r c ∧ p = .cell r c)) ∧
    (n.val > 0 → s.i.toNat + (n.val - 1) > 0xFFF →
      ∃ t, exec (.drw x y n) s = .next t ∧ FatalTaken s t .memRange a)

/-- R117: drawing the same sprite at the same place twice restores the display; the first VF is 1 exactly when a
covered cell was on before, and the second exactly when a covered cell was off before the first. -/
def Obligations.SecondDrawRestoresTheDisplay : Prop :=
  ∀ (s t s' u : State) (x y x' y' : Reg) (n : Fin 16), n.val = 0 ∨ s.i.toNat + (n.val - 1) ≤ 0xFFF →
    exec (.drw x y n) s = .next t →
    s'.i = s.i → (∀ row < n.val, s'.mem.read (s.i.toNat + row) = s.mem.read (s.i.toNat + row)) →
    (s'.getV x').toNat % 64 = (s.getV x).toNat % 64 → (s'.getV y').toNat % 32 = (s.getV y).toNat % 32 →
    s'.disp = t.disp → exec (.drw x' y' n) s' = .next u →
    u.disp = s.disp ∧
      (t.getV VF = 1#8 ↔ ∃ r c, SpriteCovers s x y n r c ∧ s.disp.cell r c = true) ∧
      (u.getV VF = 1#8 ↔ ∃ r c, SpriteCovers s x y n r c ∧ s.disp.cell r c = false)

/-! ### Keypad and timers -/

/-- R118, R119, R131: SKP and SKNP test the key whose number is Vx, or take KEY_RANGE when there is none. -/
def Obligations.KeySkipsTestTheKeyNumbered : Prop :=
  ∀ (s : State) (x : Reg) (a : Word), s.pc = a + 2#16 →
    decodeWord (BitVec.ofNat 16 (0xE09E + 0x100 * x.val)) = some (.skp x) ∧
    decodeWord (BitVec.ofNat 16 (0xE0A1 + 0x100 * x.val)) = some (.sknp x) ∧
    (∀ h : (s.getV x).toNat < 16,
      (∃ t, exec (.skp x) s = .next t ∧
        t.pc = (if s.key[(s.getV x).toNat] = true then s.pc + 2#16 else s.pc) ∧
        ChangesOnly s t (fun p => p = .pc)) ∧
      (∃ t, exec (.sknp x) s = .next t ∧
        t.pc = (if s.key[(s.getV x).toNat] = false then s.pc + 2#16 else s.pc) ∧
        ChangesOnly s t (fun p => p = .pc))) ∧
    ((s.getV x).toNat ≥ 16 →
      (∃ t, exec (.skp x) s = .next t ∧ FatalTaken s t .keyRange a) ∧
      (∃ t, exec (.sknp x) s = .next t ∧ FatalTaken s t .keyRange a))

/-- R121: with a key pressed, the least one's number goes to Vx; with none, pc goes back to the instruction and
nothing else changes. -/
def Obligations.KeyWaitTakesTheLeastKeyOrRepeats : Prop :=
  ∀ (s : State) (x : Reg) (a : Word), s.pc = a + 2#16 →
    decodeWord (BitVec.ofNat 16 (0xF00A + 0x100 * x.val)) = some (.ldVxK x) ∧
    ((∀ j : Key, s.key[j] = false) → ∃ t, exec (.ldVxK x) s = .next t ∧ t.pc = a ∧
      ChangesOnly s t (fun p => p = .pc)) ∧
    (∀ k : Key, s.key[k] = true → (∀ j : Key, j < k → s.key[j] = false) →
      ∃ t, exec (.ldVxK x) s = .next t ∧ (t.getV x).toNat = k.val ∧ ChangesOnly s t (fun p => p = .v x))

/-- R120, R122, R123: reading DT, and writing DT and ST. -/
def Obligations.TimersAreReadAndWritten : Prop :=
  ∀ (s : State) (x : Reg),
    (decodeWord (BitVec.ofNat 16 (0xF007 + 0x100 * x.val)) = some (.ldVxDt x) ∧
      ∃ t, exec (.ldVxDt x) s = .next t ∧ t.getV x = s.dt ∧ ChangesOnly s t (fun p => p = .v x)) ∧
    (decodeWord (BitVec.ofNat 16 (0xF015 + 0x100 * x.val)) = some (.ldDtVx x) ∧
      ∃ t, exec (.ldDtVx x) s = .next t ∧ t.dt = s.getV x ∧ ChangesOnly s t (fun p => p = .dt)) ∧
    (decodeWord (BitVec.ofNat 16 (0xF018 + 0x100 * x.val)) = some (.ldStVx x) ∧
      ∃ t, exec (.ldStVx x) s = .next t ∧ t.st = s.getV x ∧ ChangesOnly s t (fun p => p = .st))

/-- R121, R158: over any number of cycles with no key pressed, a core at LD Vx, K stays exactly as it is: the wait
has no state of its own. -/
def Obligations.KeyWaitSpinsUntilAKey : Prop :=
  ∀ (n : Nat) (s : State) (x : Reg), s.CanFetch → decodeWord s.fetchWord = some (.ldVxK x) →
    (∀ j : Key, s.key[j] = false) → Host.Core.run Sys2Proof.core n s = .next s

/-- R140, R159: DT written from Vx and read back after n ticks is Vx less n, floored at 0. The floor is marked
general knowledge in the spec (log 7). -/
def Obligations.DelayTimerReadBackLosesTheTicks : Prop :=
  ∀ (n : Nat) (s : State) (x y : Reg), ∃ t u, exec (.ldDtVx x) s = .next t ∧
    exec (.ldVxDt y) (State.tick^[n] t) = .next u ∧ (u.getV y).toNat = (s.getV x).toNat - n

/-! ### Rules about the whole machine -/

/-- R126: the numbers of the fault codes. -/
def Obligations.FaultCodesHaveTheListedNumbers : Prop :=
  FaultCode.pcOverrun.number = 1 ∧ FaultCode.stackOverflow.number = 2 ∧ FaultCode.stackUnderflow.number = 3 ∧
  FaultCode.memRange.number = 4 ∧ FaultCode.keyRange.number = 5

/-- Who reads what, R37: the latches matter to SKP, SKNP and LD Vx, K alone, the stack and sp to CALL and RET alone,
the display to CLS and DRW alone: every other instruction does the same whatever they hold, and keeps them. Both
executions start from equal draw counters, so the model gives RND the same draw in both (log 3, the model's choice):
this compares executions with equal inputs. -/
def Obligations.OnlyTheNamedInstructionsReachTheDevices : Prop :=
  ∀ (i : Instr) (s t : State), exec i s = .next t →
    ((∀ x, i ≠ .skp x ∧ i ≠ .sknp x ∧ i ≠ .ldVxK x) →
      ∀ k, exec i { s with key := k } = .next { t with key := k }) ∧
    (i ≠ .ret ∧ (∀ nnn, i ≠ .call nnn) →
      ∀ k n, exec i { s with stack := k, sp := n } = .next { t with stack := k, sp := n }) ∧
    (i ≠ .cls ∧ (∀ x y n, i ≠ .drw x y n) →
      ∀ d, exec i { s with disp := d } = .next { t with disp := d })

/-- Who writes what: an instruction leaves the latches and the reports alone, and each other kind of state alone
unless it is one of those the spec names as its writers (R16, R18, R20, R22 to R28, R33, R36, R37). pc is compared with
the pc after the fetch advance. The draw counter is the model's own (log 3). -/
def Obligations.OnlyTheNamedInstructionsWrite : Prop :=
  ∀ (i : Instr) (s t : State), exec i s = .next t →
    t.key = s.key ∧ t.reports = s.reports ∧
    (t.stack ≠ s.stack → ∃ nnn, i = .call nnn) ∧
    (t.sp ≠ s.sp → (∃ nnn, i = .call nnn) ∨ i = .ret) ∧
    ((∃ a, t.mem.read a ≠ s.mem.read a) → ∃ x, i = .ldB x ∨ i = .storeRegs x) ∧
    (t.disp ≠ s.disp → i = .cls ∨ ∃ x y n, i = .drw x y n) ∧
    (t.i ≠ s.i → (∃ nnn, i = .ldI nnn) ∨ ∃ x, i = .addI x ∨ i = .ldF x) ∧
    (t.dt ≠ s.dt → ∃ x, i = .ldDtVx x) ∧ (t.st ≠ s.st → ∃ x, i = .ldStVx x) ∧
    (t.draws ≠ s.draws → ∃ x kk, i = .rnd x kk) ∧
    (∀ z, t.getV z ≠ s.getV z →
      (∃ kk, i = .ldImm z kk ∨ i = .addImm z kk ∨ i = .rnd z kk) ∨
      (∃ y, i = .ldReg z y ∨ i = .orReg z y ∨ i = .andReg z y ∨ i = .xorReg z y) ∨
      i = .ldVxDt z ∨ i = .ldVxK z ∨ (∃ x, z ≤ x ∧ i = .loadRegs x) ∨
      (∃ x y, (z = x ∨ z = VF) ∧
        (i = .addReg x y ∨ i = .sub x y ∨ i = .shr x y ∨ i = .subn x y ∨ i = .shl x y)) ∨
      (z = VF ∧ ∃ x y n, i = .drw x y n)) ∧
    (t.pc ≠ s.pc →
      (∃ nnn, i = .jp nnn ∨ i = .call nnn ∨ i = .jpV0 nnn) ∨ i = .ret ∨
      (∃ x kk, i = .seImm x kk ∨ i = .sneImm x kk) ∨ (∃ x y, i = .seReg x y ∨ i = .sneReg x y) ∨
      (∃ x, i = .skp x ∨ i = .sknp x ∨ i = .ldVxK x)) ∧
    (t.halted ≠ s.halted ∨ t.faultCode ≠ s.faultCode ∨ t.faultAddr ≠ s.faultAddr →
      (∃ nnn, i = .call nnn) ∨ i = .ret ∨ (∃ x y n, i = .drw x y n) ∨
      (∃ x, i = .ldB x ∨ i = .storeRegs x ∨ i = .loadRegs x ∨ i = .skp x ∨ i = .sknp x))

/-- R33: VF changes only in the six instructions that write it as a flag, or as an ordinary register where it is
the destination (all of V0..VF, for LD VF, [I]). -/
def Obligations.VfHasTheListedWriters : Prop :=
  ∀ (i : Instr) (s t : State), exec i s = .next t → t.getV VF ≠ s.getV VF →
    (∃ x y, i = .addReg x y ∨ i = .sub x y ∨ i = .shr x y ∨ i = .subn x y ∨ i = .shl x y) ∨
    (∃ x y n, i = .drw x y n) ∨
    (∃ kk, i = .ldImm VF kk ∨ i = .addImm VF kk ∨ i = .rnd VF kk) ∨
    (∃ y, i = .ldReg VF y ∨ i = .orReg VF y ∨ i = .andReg VF y ∨ i = .xorReg VF y) ∨
    i = .ldVxDt VF ∨ i = .ldVxK VF ∨ i = .loadRegs VF

/-- R25: no instruction reads ST, so over any number of cycles two machines that differ in ST alone stay equal in
everything else. Both runs start from equal draw counters and so see the same draws (log 3, the model's choice): this
compares runs with equal inputs. -/
def Obligations.SoundTimerIsNeverObserved : Prop :=
  ∀ (n : Nat) (s t : State) (b : Byte), Host.Core.run Sys2Proof.core n s = .next t →
    ∃ c, Host.Core.run Sys2Proof.core n { s with st := b } = .next { t with st := c }

/-- R135: the report stream only grows and has no effect on any later cycle: over any number of cycles, whatever
was reported before, the same entries are added and everything else is the same. That the stream is a field of State is
the model's choice (log 4); both runs start from equal draw counters and so see the same draws (log 3, the model's
choice): this compares runs with equal inputs. -/
def Obligations.ReportStreamIsOnlyAnOutput : Prop :=
  ∀ (n : Nat) (s t : State) (earlier : List Report), Host.Core.run Sys2Proof.core n s = .next t →
    ∃ added, t.reports = s.reports ++ added ∧
      Host.Core.run Sys2Proof.core n { s with reports := earlier } = .next { t with reports := earlier ++ added }
end

