-- ==== Sys2Proof/Laws/Decode.lean ====
section
/-! SUPPORT. The fields of an encoded word are the fields it was encoded from, and what masking a word keeps of it. -/

namespace Sys2Proof

@[simp] theorem toFin_nibble (r : Fin 16) : (nibble r).toFin = r := rfl

@[simp] theorem nibble_toFin (b : BitVec 4) : nibble b.toFin = b := rfl

/-! ### The fields of each format -/

theorem append_high {n m : Nat} (a : BitVec n) (b : BitVec m) : (a ++ b).extractLsb' m n = a := by
  ext i hi
  simp [BitVec.getLsbD_append, BitVec.getLsbD_eq_getElem hi]

theorem append_low {n m : Nat} (a : BitVec n) (b : BitVec m) : (a ++ b).extractLsb' 0 m = b := by
  ext i hi
  simp [BitVec.getLsbD_append, hi]

/-- A field inside the low part of a concatenation is that field of the low part. -/
theorem append_within {n m k w : Nat} (a : BitVec n) (b : BitVec m) (h : k + w ≤ m) :
    (a ++ b).extractLsb' k w = b.extractLsb' k w := by
  ext i hi
  have : k + i < m := by omega
  simp [BitVec.getLsbD_append, this]

@[simp] theorem fieldTop_encNNN (top : BitVec 4) (nnn : Addr) : fieldTop (encNNN top nnn) = top.toNat := by
  simp only [fieldTop, encNNN]; rw [append_high top nnn]

@[simp] theorem fieldNnn_encNNN (top : BitVec 4) (nnn : Addr) : fieldNnn (encNNN top nnn) = nnn :=
  append_low top nnn

@[simp] theorem fieldTop_encXKK (top : BitVec 4) (x : Reg) (kk : Byte) : fieldTop (encXKK top x kk) = top.toNat := by
  simp only [fieldTop, encXKK]; rw [append_high top (nibble x ++ kk)]

@[simp] theorem fieldX_encXKK (top : BitVec 4) (x : Reg) (kk : Byte) : fieldX (encXKK top x kk) = x := by
  simp only [fieldX, encXKK]
  rw [append_within top (nibble x ++ kk) (by omega), append_high (nibble x) kk, toFin_nibble]

@[simp] theorem fieldKk_encXKK (top : BitVec 4) (x : Reg) (kk : Byte) : fieldKk (encXKK top x kk) = kk := by
  simp only [fieldKk, encXKK]
  rw [append_within top (nibble x ++ kk) (by omega), append_low (nibble x) kk]

@[simp] theorem fieldTop_encXYN (top : BitVec 4) (x y : Reg) (n : BitVec 4) :
    fieldTop (encXYN top x y n) = top.toNat := by
  simp only [fieldTop, encXYN]; rw [append_high top (nibble x ++ (nibble y ++ n))]

@[simp] theorem fieldX_encXYN (top : BitVec 4) (x y : Reg) (n : BitVec 4) : fieldX (encXYN top x y n) = x := by
  simp only [fieldX, encXYN]
  rw [append_within top (nibble x ++ (nibble y ++ n)) (by omega), append_high (nibble x) (nibble y ++ n), toFin_nibble]

@[simp] theorem fieldY_encXYN (top : BitVec 4) (x y : Reg) (n : BitVec 4) : fieldY (encXYN top x y n) = y := by
  simp only [fieldY, encXYN]
  rw [append_within top (nibble x ++ (nibble y ++ n)) (by omega),
    append_within (nibble x) (nibble y ++ n) (by omega), append_high (nibble y) n, toFin_nibble]

@[simp] theorem fieldN_encXYN (top : BitVec 4) (x y : Reg) (n : BitVec 4) :
    fieldN (encXYN top x y n) = n.toFin := by
  simp only [fieldN, encXYN]
  rw [append_within top (nibble x ++ (nibble y ++ n)) (by omega),
    append_within (nibble x) (nibble y ++ n) (by omega), append_low (nibble y) n]

/-! ### Bytes of a word -/

/-- The two bytes of a word, put together again, are the word. -/
@[simp] theorem wordOfBytes_highByte_lowByte (op : Word) : wordOfBytes (highByte op) (lowByte op) = op := by
  apply BitVec.eq_of_getLsbD_eq
  intro i hi
  simp only [wordOfBytes, highByte, lowByte, BitVec.getLsbD_append, BitVec.getLsbD_extractLsb']
  by_cases h : i < 8
  · simp [h]
  · have h1 : i - 8 < 8 := by omega
    have h2 : 8 + (i - 8) = i := by omega
    simp [h, h1, h2]

@[simp] theorem highByte_wordOfBytes (hi lo : Byte) : highByte (wordOfBytes hi lo) = hi := append_high hi lo

@[simp] theorem lowByte_wordOfBytes (hi lo : Byte) : lowByte (wordOfBytes hi lo) = lo := append_low hi lo

/-- Big-endian: the word is its high byte times 256 plus its low byte (40_cycle.md R74). -/
theorem toNat_wordOfBytes (hi lo : Byte) : (wordOfBytes hi lo).toNat = hi.toNat * 256 + lo.toNat := by
  rw [wordOfBytes, BitVec.toNat_append, Nat.shiftLeft_eq, ← Nat.shiftLeft_eq,
    ← Nat.shiftLeft_add_eq_or_of_lt lo.isLt, Nat.shiftLeft_eq]

/-! ### Masking -/

theorem encNNN_masked (top : BitVec 4) (nnn : Addr) : encNNN top nnn &&& 0xF000#16 = encNNN top 0#12 := by
  have e : (0xF000#16 : Word) = 0xF#4 ++ 0x000#12 := rfl
  have h : top &&& 0xF#4 = top := BitVec.and_allOnes
  rw [encNNN, e, BitVec.and_append, h, BitVec.and_zero]; rfl

theorem encXKK_masked_top (top : BitVec 4) (x : Reg) (kk : Byte) :
    encXKK top x kk &&& 0xF000#16 = encXKK top 0 0#8 :=
  encNNN_masked top (nibble x ++ kk)

theorem encXKK_masked_function (top : BitVec 4) (x : Reg) (kk : Byte) :
    encXKK top x kk &&& 0xF0FF#16 = encXKK top 0 kk := by
  have e : (0xF0FF#16 : Word) = 0xF#4 ++ (0x0#4 ++ 0xFF#8) := rfl
  have h : top &&& 0xF#4 = top := BitVec.and_allOnes
  have h' : kk &&& 0xFF#8 = kk := BitVec.and_allOnes
  rw [encXKK, e, BitVec.and_append, BitVec.and_append, h, h', BitVec.and_zero]; rfl

theorem encXYN_masked_top (top : BitVec 4) (x y : Reg) (n : BitVec 4) :
    encXYN top x y n &&& 0xF000#16 = encXYN top 0 0 0#4 :=
  encNNN_masked top (nibble x ++ (nibble y ++ n))

theorem encXYN_masked_function (top : BitVec 4) (x y : Reg) (n : BitVec 4) :
    encXYN top x y n &&& 0xF00F#16 = encXYN top 0 0 n := by
  have e : (0xF00F#16 : Word) = 0xF#4 ++ (0x0#4 ++ (0x0#4 ++ 0xF#4)) := rfl
  have h : top &&& 0xF#4 = top := BitVec.and_allOnes
  have h' : n &&& 0xF#4 = n := BitVec.and_allOnes
  rw [encXYN, e, BitVec.and_append, BitVec.and_append, BitVec.and_append, h, h', BitVec.and_zero,
    BitVec.and_zero]; rfl

theorem encNNN_inj {top : BitVec 4} {a b : Addr} (h : encNNN top a = encNNN top b) : a = b := by
  rw [← fieldNnn_encNNN top a, h, fieldNnn_encNNN]

end Sys2Proof
end

