-- ==== Sys2Proof/Laws/State.lean ====
section
/-! SUPPORT. One lemma per field per named update of State, true by rfl, and the read-after-write laws of the
registers, so that no later proof unfolds a record update. -/

namespace Sys2Proof.Machine

/-! ### setV -/

@[simp] theorem State.setV_v (s : State) (x : Reg) (b : Byte) : (s.setV x b).v = s.v.set x b := rfl
@[simp] theorem State.setV_i (s : State) (x : Reg) (b : Byte) : (s.setV x b).i = s.i := rfl
@[simp] theorem State.setV_pc (s : State) (x : Reg) (b : Byte) : (s.setV x b).pc = s.pc := rfl
@[simp] theorem State.setV_sp (s : State) (x : Reg) (b : Byte) : (s.setV x b).sp = s.sp := rfl
@[simp] theorem State.setV_stack (s : State) (x : Reg) (b : Byte) : (s.setV x b).stack = s.stack := rfl
@[simp] theorem State.setV_dt (s : State) (x : Reg) (b : Byte) : (s.setV x b).dt = s.dt := rfl
@[simp] theorem State.setV_st (s : State) (x : Reg) (b : Byte) : (s.setV x b).st = s.st := rfl
@[simp] theorem State.setV_disp (s : State) (x : Reg) (b : Byte) : (s.setV x b).disp = s.disp := rfl
@[simp] theorem State.setV_key (s : State) (x : Reg) (b : Byte) : (s.setV x b).key = s.key := rfl
@[simp] theorem State.setV_mem (s : State) (x : Reg) (b : Byte) : (s.setV x b).mem = s.mem := rfl
@[simp] theorem State.setV_halted (s : State) (x : Reg) (b : Byte) : (s.setV x b).halted = s.halted := rfl
@[simp] theorem State.setV_faultCode (s : State) (x : Reg) (b : Byte) : (s.setV x b).faultCode = s.faultCode := rfl
@[simp] theorem State.setV_faultAddr (s : State) (x : Reg) (b : Byte) : (s.setV x b).faultAddr = s.faultAddr := rfl
@[simp] theorem State.setV_reports (s : State) (x : Reg) (b : Byte) : (s.setV x b).reports = s.reports := rfl
@[simp] theorem State.setV_draws (s : State) (x : Reg) (b : Byte) : (s.setV x b).draws = s.draws := rfl

/-! ### setRegs -/

@[simp] theorem State.setRegs_v (s : State) (bs : List Byte) : (s.setRegs bs).v = Vector.ofFn (fun k : Fin 16 => bs.getD k.val s.v[k]) := rfl
@[simp] theorem State.setRegs_i (s : State) (bs : List Byte) : (s.setRegs bs).i = s.i := rfl
@[simp] theorem State.setRegs_pc (s : State) (bs : List Byte) : (s.setRegs bs).pc = s.pc := rfl
@[simp] theorem State.setRegs_sp (s : State) (bs : List Byte) : (s.setRegs bs).sp = s.sp := rfl
@[simp] theorem State.setRegs_stack (s : State) (bs : List Byte) : (s.setRegs bs).stack = s.stack := rfl
@[simp] theorem State.setRegs_dt (s : State) (bs : List Byte) : (s.setRegs bs).dt = s.dt := rfl
@[simp] theorem State.setRegs_st (s : State) (bs : List Byte) : (s.setRegs bs).st = s.st := rfl
@[simp] theorem State.setRegs_disp (s : State) (bs : List Byte) : (s.setRegs bs).disp = s.disp := rfl
@[simp] theorem State.setRegs_key (s : State) (bs : List Byte) : (s.setRegs bs).key = s.key := rfl
@[simp] theorem State.setRegs_mem (s : State) (bs : List Byte) : (s.setRegs bs).mem = s.mem := rfl
@[simp] theorem State.setRegs_halted (s : State) (bs : List Byte) : (s.setRegs bs).halted = s.halted := rfl
@[simp] theorem State.setRegs_faultCode (s : State) (bs : List Byte) : (s.setRegs bs).faultCode = s.faultCode := rfl
@[simp] theorem State.setRegs_faultAddr (s : State) (bs : List Byte) : (s.setRegs bs).faultAddr = s.faultAddr := rfl
@[simp] theorem State.setRegs_reports (s : State) (bs : List Byte) : (s.setRegs bs).reports = s.reports := rfl
@[simp] theorem State.setRegs_draws (s : State) (bs : List Byte) : (s.setRegs bs).draws = s.draws := rfl

/-! ### setI -/

@[simp] theorem State.setI_v (s : State) (a : Word) : (s.setI a).v = s.v := rfl
@[simp] theorem State.setI_i (s : State) (a : Word) : (s.setI a).i = a := rfl
@[simp] theorem State.setI_pc (s : State) (a : Word) : (s.setI a).pc = s.pc := rfl
@[simp] theorem State.setI_sp (s : State) (a : Word) : (s.setI a).sp = s.sp := rfl
@[simp] theorem State.setI_stack (s : State) (a : Word) : (s.setI a).stack = s.stack := rfl
@[simp] theorem State.setI_dt (s : State) (a : Word) : (s.setI a).dt = s.dt := rfl
@[simp] theorem State.setI_st (s : State) (a : Word) : (s.setI a).st = s.st := rfl
@[simp] theorem State.setI_disp (s : State) (a : Word) : (s.setI a).disp = s.disp := rfl
@[simp] theorem State.setI_key (s : State) (a : Word) : (s.setI a).key = s.key := rfl
@[simp] theorem State.setI_mem (s : State) (a : Word) : (s.setI a).mem = s.mem := rfl
@[simp] theorem State.setI_halted (s : State) (a : Word) : (s.setI a).halted = s.halted := rfl
@[simp] theorem State.setI_faultCode (s : State) (a : Word) : (s.setI a).faultCode = s.faultCode := rfl
@[simp] theorem State.setI_faultAddr (s : State) (a : Word) : (s.setI a).faultAddr = s.faultAddr := rfl
@[simp] theorem State.setI_reports (s : State) (a : Word) : (s.setI a).reports = s.reports := rfl
@[simp] theorem State.setI_draws (s : State) (a : Word) : (s.setI a).draws = s.draws := rfl
@[simp] theorem State.setI_getV (s : State) (a : Word) (y : Reg) : (s.setI a).getV y = s.getV y := rfl

/-! ### setPc -/

@[simp] theorem State.setPc_v (s : State) (a : Word) : (s.setPc a).v = s.v := rfl
@[simp] theorem State.setPc_i (s : State) (a : Word) : (s.setPc a).i = s.i := rfl
@[simp] theorem State.setPc_pc (s : State) (a : Word) : (s.setPc a).pc = a := rfl
@[simp] theorem State.setPc_sp (s : State) (a : Word) : (s.setPc a).sp = s.sp := rfl
@[simp] theorem State.setPc_stack (s : State) (a : Word) : (s.setPc a).stack = s.stack := rfl
@[simp] theorem State.setPc_dt (s : State) (a : Word) : (s.setPc a).dt = s.dt := rfl
@[simp] theorem State.setPc_st (s : State) (a : Word) : (s.setPc a).st = s.st := rfl
@[simp] theorem State.setPc_disp (s : State) (a : Word) : (s.setPc a).disp = s.disp := rfl
@[simp] theorem State.setPc_key (s : State) (a : Word) : (s.setPc a).key = s.key := rfl
@[simp] theorem State.setPc_mem (s : State) (a : Word) : (s.setPc a).mem = s.mem := rfl
@[simp] theorem State.setPc_halted (s : State) (a : Word) : (s.setPc a).halted = s.halted := rfl
@[simp] theorem State.setPc_faultCode (s : State) (a : Word) : (s.setPc a).faultCode = s.faultCode := rfl
@[simp] theorem State.setPc_faultAddr (s : State) (a : Word) : (s.setPc a).faultAddr = s.faultAddr := rfl
@[simp] theorem State.setPc_reports (s : State) (a : Word) : (s.setPc a).reports = s.reports := rfl
@[simp] theorem State.setPc_draws (s : State) (a : Word) : (s.setPc a).draws = s.draws := rfl
@[simp] theorem State.setPc_getV (s : State) (a : Word) (y : Reg) : (s.setPc a).getV y = s.getV y := rfl

/-! ### setDt -/

@[simp] theorem State.setDt_v (s : State) (b : Byte) : (s.setDt b).v = s.v := rfl
@[simp] theorem State.setDt_i (s : State) (b : Byte) : (s.setDt b).i = s.i := rfl
@[simp] theorem State.setDt_pc (s : State) (b : Byte) : (s.setDt b).pc = s.pc := rfl
@[simp] theorem State.setDt_sp (s : State) (b : Byte) : (s.setDt b).sp = s.sp := rfl
@[simp] theorem State.setDt_stack (s : State) (b : Byte) : (s.setDt b).stack = s.stack := rfl
@[simp] theorem State.setDt_dt (s : State) (b : Byte) : (s.setDt b).dt = b := rfl
@[simp] theorem State.setDt_st (s : State) (b : Byte) : (s.setDt b).st = s.st := rfl
@[simp] theorem State.setDt_disp (s : State) (b : Byte) : (s.setDt b).disp = s.disp := rfl
@[simp] theorem State.setDt_key (s : State) (b : Byte) : (s.setDt b).key = s.key := rfl
@[simp] theorem State.setDt_mem (s : State) (b : Byte) : (s.setDt b).mem = s.mem := rfl
@[simp] theorem State.setDt_halted (s : State) (b : Byte) : (s.setDt b).halted = s.halted := rfl
@[simp] theorem State.setDt_faultCode (s : State) (b : Byte) : (s.setDt b).faultCode = s.faultCode := rfl
@[simp] theorem State.setDt_faultAddr (s : State) (b : Byte) : (s.setDt b).faultAddr = s.faultAddr := rfl
@[simp] theorem State.setDt_reports (s : State) (b : Byte) : (s.setDt b).reports = s.reports := rfl
@[simp] theorem State.setDt_draws (s : State) (b : Byte) : (s.setDt b).draws = s.draws := rfl
@[simp] theorem State.setDt_getV (s : State) (b : Byte) (y : Reg) : (s.setDt b).getV y = s.getV y := rfl

/-! ### setSt -/

@[simp] theorem State.setSt_v (s : State) (b : Byte) : (s.setSt b).v = s.v := rfl
@[simp] theorem State.setSt_i (s : State) (b : Byte) : (s.setSt b).i = s.i := rfl
@[simp] theorem State.setSt_pc (s : State) (b : Byte) : (s.setSt b).pc = s.pc := rfl
@[simp] theorem State.setSt_sp (s : State) (b : Byte) : (s.setSt b).sp = s.sp := rfl
@[simp] theorem State.setSt_stack (s : State) (b : Byte) : (s.setSt b).stack = s.stack := rfl
@[simp] theorem State.setSt_dt (s : State) (b : Byte) : (s.setSt b).dt = s.dt := rfl
@[simp] theorem State.setSt_st (s : State) (b : Byte) : (s.setSt b).st = b := rfl
@[simp] theorem State.setSt_disp (s : State) (b : Byte) : (s.setSt b).disp = s.disp := rfl
@[simp] theorem State.setSt_key (s : State) (b : Byte) : (s.setSt b).key = s.key := rfl
@[simp] theorem State.setSt_mem (s : State) (b : Byte) : (s.setSt b).mem = s.mem := rfl
@[simp] theorem State.setSt_halted (s : State) (b : Byte) : (s.setSt b).halted = s.halted := rfl
@[simp] theorem State.setSt_faultCode (s : State) (b : Byte) : (s.setSt b).faultCode = s.faultCode := rfl
@[simp] theorem State.setSt_faultAddr (s : State) (b : Byte) : (s.setSt b).faultAddr = s.faultAddr := rfl
@[simp] theorem State.setSt_reports (s : State) (b : Byte) : (s.setSt b).reports = s.reports := rfl
@[simp] theorem State.setSt_draws (s : State) (b : Byte) : (s.setSt b).draws = s.draws := rfl
@[simp] theorem State.setSt_getV (s : State) (b : Byte) (y : Reg) : (s.setSt b).getV y = s.getV y := rfl

/-! ### consumeDraw -/

@[simp] theorem State.consumeDraw_v (s : State) : (s.consumeDraw).v = s.v := rfl
@[simp] theorem State.consumeDraw_i (s : State) : (s.consumeDraw).i = s.i := rfl
@[simp] theorem State.consumeDraw_pc (s : State) : (s.consumeDraw).pc = s.pc := rfl
@[simp] theorem State.consumeDraw_sp (s : State) : (s.consumeDraw).sp = s.sp := rfl
@[simp] theorem State.consumeDraw_stack (s : State) : (s.consumeDraw).stack = s.stack := rfl
@[simp] theorem State.consumeDraw_dt (s : State) : (s.consumeDraw).dt = s.dt := rfl
@[simp] theorem State.consumeDraw_st (s : State) : (s.consumeDraw).st = s.st := rfl
@[simp] theorem State.consumeDraw_disp (s : State) : (s.consumeDraw).disp = s.disp := rfl
@[simp] theorem State.consumeDraw_key (s : State) : (s.consumeDraw).key = s.key := rfl
@[simp] theorem State.consumeDraw_mem (s : State) : (s.consumeDraw).mem = s.mem := rfl
@[simp] theorem State.consumeDraw_halted (s : State) : (s.consumeDraw).halted = s.halted := rfl
@[simp] theorem State.consumeDraw_faultCode (s : State) : (s.consumeDraw).faultCode = s.faultCode := rfl
@[simp] theorem State.consumeDraw_faultAddr (s : State) : (s.consumeDraw).faultAddr = s.faultAddr := rfl
@[simp] theorem State.consumeDraw_reports (s : State) : (s.consumeDraw).reports = s.reports := rfl
@[simp] theorem State.consumeDraw_draws (s : State) : (s.consumeDraw).draws = s.draws + 1 := rfl
@[simp] theorem State.consumeDraw_getV (s : State) (y : Reg) : (s.consumeDraw).getV y = s.getV y := rfl

/-! ### raiseFatal -/

@[simp] theorem State.raiseFatal_v (s : State) (code : FaultCode) (addr : Word) : (s.raiseFatal code addr).v = s.v := rfl
@[simp] theorem State.raiseFatal_i (s : State) (code : FaultCode) (addr : Word) : (s.raiseFatal code addr).i = s.i := rfl
@[simp] theorem State.raiseFatal_pc (s : State) (code : FaultCode) (addr : Word) : (s.raiseFatal code addr).pc = s.pc := rfl
@[simp] theorem State.raiseFatal_sp (s : State) (code : FaultCode) (addr : Word) : (s.raiseFatal code addr).sp = s.sp := rfl
@[simp] theorem State.raiseFatal_stack (s : State) (code : FaultCode) (addr : Word) : (s.raiseFatal code addr).stack = s.stack := rfl
@[simp] theorem State.raiseFatal_dt (s : State) (code : FaultCode) (addr : Word) : (s.raiseFatal code addr).dt = s.dt := rfl
@[simp] theorem State.raiseFatal_st (s : State) (code : FaultCode) (addr : Word) : (s.raiseFatal code addr).st = s.st := rfl
@[simp] theorem State.raiseFatal_disp (s : State) (code : FaultCode) (addr : Word) : (s.raiseFatal code addr).disp = s.disp := rfl
@[simp] theorem State.raiseFatal_key (s : State) (code : FaultCode) (addr : Word) : (s.raiseFatal code addr).key = s.key := rfl
@[simp] theorem State.raiseFatal_mem (s : State) (code : FaultCode) (addr : Word) : (s.raiseFatal code addr).mem = s.mem := rfl
@[simp] theorem State.raiseFatal_halted (s : State) (code : FaultCode) (addr : Word) : (s.raiseFatal code addr).halted = true := rfl
@[simp] theorem State.raiseFatal_faultCode (s : State) (code : FaultCode) (addr : Word) : (s.raiseFatal code addr).faultCode = some code := rfl
@[simp] theorem State.raiseFatal_faultAddr (s : State) (code : FaultCode) (addr : Word) : (s.raiseFatal code addr).faultAddr = addr := rfl
@[simp] theorem State.raiseFatal_reports (s : State) (code : FaultCode) (addr : Word) : (s.raiseFatal code addr).reports = s.reports := rfl
@[simp] theorem State.raiseFatal_draws (s : State) (code : FaultCode) (addr : Word) : (s.raiseFatal code addr).draws = s.draws := rfl
@[simp] theorem State.raiseFatal_getV (s : State) (code : FaultCode) (addr : Word) (y : Reg) : (s.raiseFatal code addr).getV y = s.getV y := rfl

/-! ### reportUnknown -/

@[simp] theorem State.reportUnknown_v (s : State) (op addr : Word) : (s.reportUnknown op addr).v = s.v := rfl
@[simp] theorem State.reportUnknown_i (s : State) (op addr : Word) : (s.reportUnknown op addr).i = s.i := rfl
@[simp] theorem State.reportUnknown_pc (s : State) (op addr : Word) : (s.reportUnknown op addr).pc = s.pc := rfl
@[simp] theorem State.reportUnknown_sp (s : State) (op addr : Word) : (s.reportUnknown op addr).sp = s.sp := rfl
@[simp] theorem State.reportUnknown_stack (s : State) (op addr : Word) : (s.reportUnknown op addr).stack = s.stack := rfl
@[simp] theorem State.reportUnknown_dt (s : State) (op addr : Word) : (s.reportUnknown op addr).dt = s.dt := rfl
@[simp] theorem State.reportUnknown_st (s : State) (op addr : Word) : (s.reportUnknown op addr).st = s.st := rfl
@[simp] theorem State.reportUnknown_disp (s : State) (op addr : Word) : (s.reportUnknown op addr).disp = s.disp := rfl
@[simp] theorem State.reportUnknown_key (s : State) (op addr : Word) : (s.reportUnknown op addr).key = s.key := rfl
@[simp] theorem State.reportUnknown_mem (s : State) (op addr : Word) : (s.reportUnknown op addr).mem = s.mem := rfl
@[simp] theorem State.reportUnknown_halted (s : State) (op addr : Word) : (s.reportUnknown op addr).halted = s.halted := rfl
@[simp] theorem State.reportUnknown_faultCode (s : State) (op addr : Word) : (s.reportUnknown op addr).faultCode = s.faultCode := rfl
@[simp] theorem State.reportUnknown_faultAddr (s : State) (op addr : Word) : (s.reportUnknown op addr).faultAddr = s.faultAddr := rfl
@[simp] theorem State.reportUnknown_reports (s : State) (op addr : Word) : (s.reportUnknown op addr).reports = s.reports ++ [⟨op, addr⟩] := rfl
@[simp] theorem State.reportUnknown_draws (s : State) (op addr : Word) : (s.reportUnknown op addr).draws = s.draws := rfl
@[simp] theorem State.reportUnknown_getV (s : State) (op addr : Word) (y : Reg) : (s.reportUnknown op addr).getV y = s.getV y := rfl

/-! ### fetchAdvance -/

@[simp] theorem State.fetchAdvance_v (s : State) : (s.fetchAdvance).v = s.v := rfl
@[simp] theorem State.fetchAdvance_i (s : State) : (s.fetchAdvance).i = s.i := rfl
@[simp] theorem State.fetchAdvance_pc (s : State) : (s.fetchAdvance).pc = s.pc + 2#16 := rfl
@[simp] theorem State.fetchAdvance_sp (s : State) : (s.fetchAdvance).sp = s.sp := rfl
@[simp] theorem State.fetchAdvance_stack (s : State) : (s.fetchAdvance).stack = s.stack := rfl
@[simp] theorem State.fetchAdvance_dt (s : State) : (s.fetchAdvance).dt = s.dt := rfl
@[simp] theorem State.fetchAdvance_st (s : State) : (s.fetchAdvance).st = s.st := rfl
@[simp] theorem State.fetchAdvance_disp (s : State) : (s.fetchAdvance).disp = s.disp := rfl
@[simp] theorem State.fetchAdvance_key (s : State) : (s.fetchAdvance).key = s.key := rfl
@[simp] theorem State.fetchAdvance_mem (s : State) : (s.fetchAdvance).mem = s.mem := rfl
@[simp] theorem State.fetchAdvance_halted (s : State) : (s.fetchAdvance).halted = s.halted := rfl
@[simp] theorem State.fetchAdvance_faultCode (s : State) : (s.fetchAdvance).faultCode = s.faultCode := rfl
@[simp] theorem State.fetchAdvance_faultAddr (s : State) : (s.fetchAdvance).faultAddr = s.faultAddr := rfl
@[simp] theorem State.fetchAdvance_reports (s : State) : (s.fetchAdvance).reports = s.reports := rfl
@[simp] theorem State.fetchAdvance_draws (s : State) : (s.fetchAdvance).draws = s.draws := rfl
@[simp] theorem State.fetchAdvance_getV (s : State) (y : Reg) : (s.fetchAdvance).getV y = s.getV y := rfl

/-! ### setKeys -/

@[simp] theorem State.setKeys_v (s : State) (k : Vector Bool 16) : (s.setKeys k).v = s.v := rfl
@[simp] theorem State.setKeys_i (s : State) (k : Vector Bool 16) : (s.setKeys k).i = s.i := rfl
@[simp] theorem State.setKeys_pc (s : State) (k : Vector Bool 16) : (s.setKeys k).pc = s.pc := rfl
@[simp] theorem State.setKeys_sp (s : State) (k : Vector Bool 16) : (s.setKeys k).sp = s.sp := rfl
@[simp] theorem State.setKeys_stack (s : State) (k : Vector Bool 16) : (s.setKeys k).stack = s.stack := rfl
@[simp] theorem State.setKeys_dt (s : State) (k : Vector Bool 16) : (s.setKeys k).dt = s.dt := rfl
@[simp] theorem State.setKeys_st (s : State) (k : Vector Bool 16) : (s.setKeys k).st = s.st := rfl
@[simp] theorem State.setKeys_disp (s : State) (k : Vector Bool 16) : (s.setKeys k).disp = s.disp := rfl
@[simp] theorem State.setKeys_key (s : State) (k : Vector Bool 16) : (s.setKeys k).key = k := rfl
@[simp] theorem State.setKeys_mem (s : State) (k : Vector Bool 16) : (s.setKeys k).mem = s.mem := rfl
@[simp] theorem State.setKeys_halted (s : State) (k : Vector Bool 16) : (s.setKeys k).halted = s.halted := rfl
@[simp] theorem State.setKeys_faultCode (s : State) (k : Vector Bool 16) : (s.setKeys k).faultCode = s.faultCode := rfl
@[simp] theorem State.setKeys_faultAddr (s : State) (k : Vector Bool 16) : (s.setKeys k).faultAddr = s.faultAddr := rfl
@[simp] theorem State.setKeys_reports (s : State) (k : Vector Bool 16) : (s.setKeys k).reports = s.reports := rfl
@[simp] theorem State.setKeys_draws (s : State) (k : Vector Bool 16) : (s.setKeys k).draws = s.draws := rfl
@[simp] theorem State.setKeys_getV (s : State) (k : Vector Bool 16) (y : Reg) : (s.setKeys k).getV y = s.getV y := rfl

/-! ### tick -/

@[simp] theorem State.tick_v (s : State) : (s.tick).v = s.v := rfl
@[simp] theorem State.tick_i (s : State) : (s.tick).i = s.i := rfl
@[simp] theorem State.tick_pc (s : State) : (s.tick).pc = s.pc := rfl
@[simp] theorem State.tick_sp (s : State) : (s.tick).sp = s.sp := rfl
@[simp] theorem State.tick_stack (s : State) : (s.tick).stack = s.stack := rfl
@[simp] theorem State.tick_dt (s : State) : (s.tick).dt = if s.dt = 0#8 then 0#8 else s.dt - 1#8 := rfl
@[simp] theorem State.tick_st (s : State) : (s.tick).st = if s.st = 0#8 then 0#8 else s.st - 1#8 := rfl
@[simp] theorem State.tick_disp (s : State) : (s.tick).disp = s.disp := rfl
@[simp] theorem State.tick_key (s : State) : (s.tick).key = s.key := rfl
@[simp] theorem State.tick_mem (s : State) : (s.tick).mem = s.mem := rfl
@[simp] theorem State.tick_halted (s : State) : (s.tick).halted = s.halted := rfl
@[simp] theorem State.tick_faultCode (s : State) : (s.tick).faultCode = s.faultCode := rfl
@[simp] theorem State.tick_faultAddr (s : State) : (s.tick).faultAddr = s.faultAddr := rfl
@[simp] theorem State.tick_reports (s : State) : (s.tick).reports = s.reports := rfl
@[simp] theorem State.tick_draws (s : State) : (s.tick).draws = s.draws := rfl
@[simp] theorem State.tick_getV (s : State) (y : Reg) : (s.tick).getV y = s.getV y := rfl

/-! ### Reading registers after writing them -/

theorem State.getV_eq (s : State) (y : Reg) : s.getV y = s.v[y.val] := rfl

@[simp] theorem State.setV_getV_same (s : State) (x : Reg) (b : Byte) : (s.setV x b).getV x = b := by
  simp [State.getV_eq]

theorem State.setV_getV_of_ne (s : State) {x y : Reg} (b : Byte) (h : y ≠ x) : (s.setV x b).getV y = s.getV y := by
  have hne : x.val ≠ y.val := fun e => h (Fin.ext e.symm)
  simp [State.getV_eq, hne]

/-- The flag is written last, so it is what VF holds (42_alu.md R91). -/
@[simp] theorem State.setResultFlag_getV_VF (s : State) (x : Reg) (r f : Byte) :
    (s.setResultFlag x r f).getV VF = f := by
  simp [State.setResultFlag]

/-- The result is what Vx holds, unless x is VF (42_alu.md R91). -/
theorem State.setResultFlag_getV_result (s : State) {x : Reg} (r f : Byte) (h : x ≠ VF) :
    (s.setResultFlag x r f).getV x = r := by
  simp [State.setResultFlag, State.setV_getV_of_ne _ _ h]

theorem State.setResultFlag_getV_other (s : State) {x y : Reg} (r f : Byte) (hx : y ≠ x) (hf : y ≠ VF) :
    (s.setResultFlag x r f).getV y = s.getV y := by
  simp [State.setResultFlag, State.setV_getV_of_ne _ _ hf, State.setV_getV_of_ne _ _ hx]

theorem State.setRegs_getV (s : State) (bs : List Byte) (y : Reg) :
    (s.setRegs bs).getV y = bs.getD y.val (s.getV y) := by
  simp [State.getV_eq]

/-! ### Skips -/

theorem State.skipIf_pc (s : State) (c : Bool) : (s.skipIf c).pc = if c then s.pc + 2#16 else s.pc := by
  cases c <;> rfl

@[simp] theorem State.skipIf_v (s : State) (c : Bool) : (s.skipIf c).v = s.v := by cases c <;> rfl
@[simp] theorem State.skipIf_i (s : State) (c : Bool) : (s.skipIf c).i = s.i := by cases c <;> rfl
@[simp] theorem State.skipIf_sp (s : State) (c : Bool) : (s.skipIf c).sp = s.sp := by cases c <;> rfl
@[simp] theorem State.skipIf_stack (s : State) (c : Bool) : (s.skipIf c).stack = s.stack := by cases c <;> rfl
@[simp] theorem State.skipIf_dt (s : State) (c : Bool) : (s.skipIf c).dt = s.dt := by cases c <;> rfl
@[simp] theorem State.skipIf_st (s : State) (c : Bool) : (s.skipIf c).st = s.st := by cases c <;> rfl
@[simp] theorem State.skipIf_disp (s : State) (c : Bool) : (s.skipIf c).disp = s.disp := by cases c <;> rfl
@[simp] theorem State.skipIf_key (s : State) (c : Bool) : (s.skipIf c).key = s.key := by cases c <;> rfl
@[simp] theorem State.skipIf_mem (s : State) (c : Bool) : (s.skipIf c).mem = s.mem := by cases c <;> rfl
@[simp] theorem State.skipIf_halted (s : State) (c : Bool) : (s.skipIf c).halted = s.halted := by cases c <;> rfl
@[simp] theorem State.skipIf_faultCode (s : State) (c : Bool) : (s.skipIf c).faultCode = s.faultCode := by cases c <;> rfl
@[simp] theorem State.skipIf_faultAddr (s : State) (c : Bool) : (s.skipIf c).faultAddr = s.faultAddr := by cases c <;> rfl
@[simp] theorem State.skipIf_reports (s : State) (c : Bool) : (s.skipIf c).reports = s.reports := by cases c <;> rfl
@[simp] theorem State.skipIf_draws (s : State) (c : Bool) : (s.skipIf c).draws = s.draws := by cases c <;> rfl
@[simp] theorem State.skipIf_getV (s : State) (c : Bool) (y : Reg) : (s.skipIf c).getV y = s.getV y := by cases c <;> rfl

/-! ### setResultFlag changes registers only -/

@[simp] theorem State.setResultFlag_i (s : State) (x : Reg) (r f : Byte) : (s.setResultFlag x r f).i = s.i := rfl
@[simp] theorem State.setResultFlag_pc (s : State) (x : Reg) (r f : Byte) : (s.setResultFlag x r f).pc = s.pc := rfl
@[simp] theorem State.setResultFlag_sp (s : State) (x : Reg) (r f : Byte) : (s.setResultFlag x r f).sp = s.sp := rfl
@[simp] theorem State.setResultFlag_stack (s : State) (x : Reg) (r f : Byte) : (s.setResultFlag x r f).stack = s.stack := rfl
@[simp] theorem State.setResultFlag_dt (s : State) (x : Reg) (r f : Byte) : (s.setResultFlag x r f).dt = s.dt := rfl
@[simp] theorem State.setResultFlag_st (s : State) (x : Reg) (r f : Byte) : (s.setResultFlag x r f).st = s.st := rfl
@[simp] theorem State.setResultFlag_disp (s : State) (x : Reg) (r f : Byte) : (s.setResultFlag x r f).disp = s.disp := rfl
@[simp] theorem State.setResultFlag_key (s : State) (x : Reg) (r f : Byte) : (s.setResultFlag x r f).key = s.key := rfl
@[simp] theorem State.setResultFlag_mem (s : State) (x : Reg) (r f : Byte) : (s.setResultFlag x r f).mem = s.mem := rfl
@[simp] theorem State.setResultFlag_halted (s : State) (x : Reg) (r f : Byte) : (s.setResultFlag x r f).halted = s.halted := rfl
@[simp] theorem State.setResultFlag_faultCode (s : State) (x : Reg) (r f : Byte) : (s.setResultFlag x r f).faultCode = s.faultCode := rfl
@[simp] theorem State.setResultFlag_faultAddr (s : State) (x : Reg) (r f : Byte) : (s.setResultFlag x r f).faultAddr = s.faultAddr := rfl
@[simp] theorem State.setResultFlag_reports (s : State) (x : Reg) (r f : Byte) : (s.setResultFlag x r f).reports = s.reports := rfl
@[simp] theorem State.setResultFlag_draws (s : State) (x : Reg) (r f : Byte) : (s.setResultFlag x r f).draws = s.draws := rfl

end Sys2Proof.Machine
end

