-- ==== Sys2Proof/Laws/Memory.lean ====
section
/-! SUPPORT. The laws of memory: reading after writing, every operation keeps the canonical form, and canonical
memories that read alike are equal. -/

namespace Sys2Proof.Machine

/-! ### Reading after writing -/

@[simp] theorem Memory.read_nil (a : Nat) : Memory.read [] a = Memory.initial a := rfl

theorem Memory.read_insert (m : Memory) (a : Nat) (b : Byte) (k : Nat) :
    (Memory.insert m a b).read k = if k = a then b else m.read k := by
  induction m with
  | nil => simp [Memory.insert, Memory.read]
  | cons c m ih =>
    obtain ⟨j, v⟩ := c
    simp only [Memory.insert]
    split
    · simp [Memory.read]
    · split
      · subst a; by_cases h : k = j <;> simp [Memory.read, h]
      · have hja : j ≠ a := fun e => ‹¬a = j› e.symm
        simp only [Memory.read, ih]
        by_cases hk : k = j <;> simp [hk, hja]

theorem Memory.read_erase (m : Memory) (a k : Nat) :
    (Memory.erase m a).read k = if k = a then Memory.initial a else m.read k := by
  induction m with
  | nil => by_cases h : k = a <;> simp [Memory.erase, Memory.read, h]
  | cons c m ih =>
    obtain ⟨j, v⟩ := c
    simp only [Memory.erase] at ih ⊢
    by_cases h : j = a
    · subst h
      simp only [List.filter_cons, bne_self_eq_false, Bool.false_eq_true, ite_false, ih, Memory.read]
      split <;> rfl
    · simp only [List.filter_cons, bne_iff_ne, ne_eq, h, not_false_eq_true, ite_true, Memory.read, ih]
      split <;> simp_all

/-- A write is seen at its address and nowhere else (20_memory.md R38, R48). -/
theorem Memory.read_write (m : Memory) (a : Nat) (b : Byte) (k : Nat) :
    (Memory.write m a b).read k = if k = a then b else m.read k := by
  unfold Memory.write
  split
  · rw [Memory.read_erase]; simp_all
  · exact Memory.read_insert m a b k

/-- A block write puts its bytes at rising addresses and changes nothing else. -/
theorem Memory.read_writeBytes (bs : List Byte) (m : Memory) (a k : Nat) :
    (Memory.writeBytes m a bs).read k =
      if a ≤ k ∧ k < a + bs.length then bs.getD (k - a) 0#8 else m.read k := by
  induction bs generalizing m a with
  | nil => have h : ¬ (a ≤ k ∧ k < a) := by omega
           simp [Memory.writeBytes, h]
  | cons b bs ih =>
    simp only [Memory.writeBytes, ih, Memory.read_write, List.length_cons]
    by_cases h1 : k = a
    · subst h1; simp
    · by_cases h2 : a + 1 ≤ k ∧ k < a + 1 + bs.length
      · have e : k - a = (k - (a + 1)) + 1 := by omega
        have h3 : a ≤ k ∧ k < a + (bs.length + 1) := by omega
        rw [if_pos h2, if_pos h3, e]; simp
      · have h3 : ¬ (a ≤ k ∧ k < a + (bs.length + 1)) := by omega
        rw [if_neg h2, if_neg h3, if_neg h1]

/-! ### Every operation keeps the canonical form -/

theorem Memory.wf_nil : Memory.wf [] := by simp [Memory.wf]

theorem Memory.mem_insert {m : Memory} {a : Nat} {b : Byte} {c : Host.Cell} (h : c ∈ Memory.insert m a b) :
    c = (a, b) ∨ c ∈ m := by
  induction m with
  | nil => simpa [Memory.insert] using h
  | cons d m ih =>
    obtain ⟨j, v⟩ := d
    simp only [Memory.insert] at h
    split at h
    · simpa using h
    · split at h
      · rcases List.mem_cons.mp h with h | h <;> simp [h]
      · rcases List.mem_cons.mp h with h | h
        · simp [h]
        · rcases ih h with h | h <;> simp [h]

theorem Memory.sorted_insert {m : Memory} (h : m.Pairwise (fun c d => c.1 < d.1)) (a : Nat) (b : Byte) :
    (Memory.insert m a b).Pairwise (fun c d => c.1 < d.1) := by
  induction m with
  | nil => simp [Memory.insert]
  | cons d m ih =>
    obtain ⟨j, v⟩ := d
    rw [List.pairwise_cons] at h
    simp only [Memory.insert]
    split
    · rename_i hlt
      refine List.pairwise_cons.mpr ⟨?_, List.pairwise_cons.mpr h⟩
      intro c hc
      rcases List.mem_cons.mp hc with rfl | hc
      · exact hlt
      · exact Nat.lt_trans hlt (h.1 c hc)
    · split
      · subst a; exact List.pairwise_cons.mpr h
      · refine List.pairwise_cons.mpr ⟨?_, ih h.2⟩
        intro c hc
        rcases Memory.mem_insert hc with rfl | hc
        · simp only; omega
        · exact h.1 c hc

theorem Memory.wf_insert {m : Memory} (h : m.wf) {a : Nat} {b : Byte} (ha : a ≤ 0xFFF)
    (hb : b ≠ Memory.initial a) : (Memory.insert m a b).wf := by
  refine ⟨Memory.sorted_insert h.1 a b, fun c hc => ?_⟩
  rcases Memory.mem_insert hc with rfl | hc
  · exact ⟨ha, hb⟩
  · exact h.2 c hc

theorem Memory.wf_erase {m : Memory} (h : m.wf) (a : Nat) : (Memory.erase m a).wf :=
  ⟨h.1.filter _, fun c hc => h.2 c (List.mem_of_mem_filter hc)⟩

theorem Memory.wf_write {m : Memory} (h : m.wf) {a : Nat} (b : Byte) (ha : a ≤ 0xFFF) :
    (Memory.write m a b).wf := by
  unfold Memory.write
  split
  · exact Memory.wf_erase h a
  · exact Memory.wf_insert h ha ‹_›

theorem Memory.wf_writeBytes (bs : List Byte) {m : Memory} (h : m.wf) {a : Nat}
    (hr : bs = [] ∨ a + (bs.length - 1) ≤ 0xFFF) : (Memory.writeBytes m a bs).wf := by
  induction bs generalizing m a with
  | nil => exact h
  | cons b bs ih =>
    have ha : a + bs.length ≤ 0xFFF := by simpa using hr
    refine ih (Memory.wf_write h b (by omega)) ?_
    cases bs with
    | nil => exact .inl rfl
    | cons c cs => right; simp only [List.length_cons] at ha ⊢; omega

/-! ### Canonical memories that read alike are equal -/

theorem Memory.read_of_not_mem {m : Memory} {a : Nat} (h : ∀ c ∈ m, c.1 ≠ a) : m.read a = Memory.initial a := by
  induction m with
  | nil => rfl
  | cons d m ih =>
    obtain ⟨j, v⟩ := d
    have hj : a ≠ j := fun e => h (j, v) (by simp) e.symm
    simp only [Memory.read, if_neg hj]
    exact ih (fun c hc => h c (by simp [hc]))

theorem Memory.read_tail {j : Nat} {v : Byte} {m : Memory} (h : ∀ c ∈ m, j < c.1) (a : Nat) :
    m.read a = if a = j then Memory.initial j else Memory.read ((j, v) :: m) a := by
  by_cases e : a = j
  · subst e
    rw [if_pos rfl]
    exact Memory.read_of_not_mem (fun c hc => Nat.ne_of_gt (h c hc))
  · simp [Memory.read, e]

theorem Memory.ext_of_read {m n : Memory} (hm : m.wf) (hn : n.wf) (h : ∀ a, m.read a = n.read a) : m = n := by
  induction m generalizing n with
  | nil =>
    cases n with
    | nil => rfl
    | cons d n =>
      obtain ⟨j, v⟩ := d
      have e := h j
      simp only [Memory.read, ite_true] at e
      exact absurd e.symm (hn.2 (j, v) (by simp)).2
  | cons c m ih =>
    obtain ⟨i, u⟩ := c
    have hms := List.pairwise_cons.mp hm.1
    have hu := (hm.2 (i, u) (by simp)).2
    cases n with
    | nil =>
      have e := h i
      simp only [Memory.read, ite_true] at e
      exact absurd e hu
    | cons d n =>
      obtain ⟨j, v⟩ := d
      have hns := List.pairwise_cons.mp hn.1
      have hv := (hn.2 (j, v) (by simp)).2
      have hij : i = j := by
        rcases Nat.lt_trichotomy i j with hlt | heq | hgt
        · have e := h i
          rw [Memory.read_of_not_mem (m := (j, v) :: n) (a := i)] at e
          · simp only [Memory.read, ite_true] at e
            exact absurd e hu
          · intro c hc
            rcases List.mem_cons.mp hc with rfl | hc
            · exact Nat.ne_of_gt hlt
            · exact Nat.ne_of_gt (Nat.lt_trans hlt (hns.1 c hc))
        · exact heq
        · have e := (h j).symm
          rw [Memory.read_of_not_mem (m := (i, u) :: m) (a := j)] at e
          · simp only [Memory.read, ite_true] at e
            exact absurd e hv
          · intro c hc
            rcases List.mem_cons.mp hc with rfl | hc
            · exact Nat.ne_of_gt hgt
            · exact Nat.ne_of_gt (Nat.lt_trans hgt (hms.1 c hc))
      subst hij
      have huv : u = v := by simpa [Memory.read] using h i
      subst huv
      congr 1
      refine ih ⟨hms.2, fun c hc => hm.2 c (by simp [hc])⟩ ⟨hns.2, fun c hc => hn.2 c (by simp [hc])⟩ ?_
      intro a
      rw [Memory.read_tail (v := u) hms.1, Memory.read_tail (v := u) hns.1, h a]

end Sys2Proof.Machine
end

