-- ==== Sys2Proof/Laws/Display.lean ====
section
/-! SUPPORT. What drawing a sprite does, said once: a cell is toggled exactly when a set sprite bit lands on it, and
the collision is noted exactly when such a cell was on before the draw (44_display.md R113 to R115). -/

namespace Sys2Proof.Machine

theorem Display.cell_clear (r : Fin 32) (c : Fin 64) : Display.clear.cell r c = false := by
  simp [Display.cell, Display.clear]

theorem Display.cell_toggle (d : Display) (r r' : Fin 32) (c c' : Fin 64) :
    (d.toggle r c).cell r' c' = (d.cell r' c' ^^ decide (r' = r ∧ c' = c)) := by
  simp only [Display.cell, Display.toggle, Fin.getElem_fin, Vector.getElem_set]
  by_cases hr : r = r'
  · subst hr
    simp [Fin.ext_iff, eq_comm]
  · have h1 : r.val ≠ r'.val := fun e => hr (Fin.ext e)
    have h2 : ¬ (r' = r) := fun e => hr e.symm
    simp [h1, h2]

/-- Displays with the same cells are equal. -/
theorem Display.ext_of_cell {d e : Display} (h : ∀ r c, d.cell r c = e.cell r c) : d = e := by
  apply Vector.ext
  intro r hr
  apply BitVec.eq_of_getLsbD_eq
  intro c hc
  exact h ⟨r, hr⟩ ⟨c, hc⟩

/-- Different rows of one sprite land on different rows of the display. -/
theorem wrapRow_inj {py j k : Nat} (h : wrapRow (py + j) = wrapRow (py + k)) (hj : j < 32) (hk : k < 32) :
    j = k := by
  have e : (py + j) % 32 = (py + k) % 32 := by simpa [wrapRow, Fin.ofNat] using congrArg Fin.val h
  omega

/-- Different columns of one sprite land on different columns of the display. -/
theorem wrapCol_inj {px j k : Nat} (h : wrapCol (px + j) = wrapCol (px + k)) (hj : j < 64) (hk : k < 64) :
    j = k := by
  have e : (px + j) % 64 = (px + k) % 64 := by simpa [wrapCol, Fin.ofNat] using congrArg Fin.val h
  omega

/-- Some listed column of the sprite byte is set and lands on display column c. -/
def colsCover (px : Nat) (b : Byte) (cols : List Nat) (c : Fin 64) : Bool :=
  cols.any (fun col => spriteBit b col && decide (c = wrapCol (px + col)))

theorem colsCover_eq_true {px : Nat} {b : Byte} {cols : List Nat} {c : Fin 64} :
    colsCover px b cols c = true ↔ ∃ col ∈ cols, spriteBit b col = true ∧ c = wrapCol (px + col) := by
  simp [colsCover]

theorem colsCover_cons (px : Nat) (b : Byte) (col : Nat) (cols : List Nat) (c : Fin 64) :
    colsCover px b (col :: cols) c =
      ((spriteBit b col && decide (c = wrapCol (px + col))) || colsCover px b cols c) := rfl

theorem foldl_drawBit_cell (px py row : Nat) (b : Byte) (cols : List Nat) (hnd : cols.Nodup)
    (hlt : ∀ k ∈ cols, k < 64) (d : Display × Bool) (r : Fin 32) (c : Fin 64) :
    (cols.foldl (drawBit px py row b) d).1.cell r c =
      (d.1.cell r c ^^ (decide (r = wrapRow (py + row)) && colsCover px b cols c)) := by
  induction cols generalizing d with
  | nil => simp [colsCover]
  | cons col cols ih =>
    rw [List.nodup_cons] at hnd
    have hlt' : ∀ k ∈ cols, k < 64 := fun k hk => hlt k (by simp [hk])
    rw [List.foldl_cons, ih hnd.2 hlt']
    have hcol : col < 64 := hlt col (by simp)
    have hexcl : c = wrapCol (px + col) → colsCover px b cols c = false := by
      intro e
      rw [Bool.eq_false_iff]
      intro hc
      obtain ⟨k, hk, -, ek⟩ := colsCover_eq_true.mp hc
      have := wrapCol_inj (ek.symm.trans e) (hlt' k hk) hcol
      exact hnd.1 (this ▸ hk)
    rw [colsCover_cons]
    unfold drawBit
    by_cases hb : spriteBit b col = true
    · simp only [hb, ite_true, Display.cell_toggle]
      by_cases hc : c = wrapCol (px + col)
      · rw [hexcl hc]; simp [hc]
      · simp [hc]
    · simp [hb]

theorem foldl_drawBit_hit (px py row : Nat) (b : Byte) (cols : List Nat) (hnd : cols.Nodup)
    (hlt : ∀ k ∈ cols, k < 64) (d : Display × Bool) :
    (cols.foldl (drawBit px py row b) d).2 =
      (d.2 || cols.any (fun col => spriteBit b col && d.1.cell (wrapRow (py + row)) (wrapCol (px + col)))) := by
  induction cols generalizing d with
  | nil => simp
  | cons col cols ih =>
    rw [List.nodup_cons] at hnd
    have hlt' : ∀ k ∈ cols, k < 64 := fun k hk => hlt k (by simp [hk])
    rw [List.foldl_cons, ih hnd.2 hlt', List.any_cons]
    by_cases hb : spriteBit b col = true
    · simp only [drawBit, hb, ite_true, Bool.true_and, Bool.or_assoc]
      congr 2
      rw [Bool.eq_iff_iff]
      simp only [List.any_eq_true]
      refine exists_congr fun k => and_congr_right fun hk => ?_
      have hne : ¬ (wrapCol (px + k) = wrapCol (px + col)) := fun e =>
        hnd.1 (wrapCol_inj e (hlt' k hk) (hlt col (by simp)) ▸ hk)
      simp [Display.cell_toggle, hne]
    · simp [drawBit, hb]

theorem range8_lt : ∀ k ∈ List.range 8, k < 64 := fun k hk => by
  have := List.mem_range.mp hk; omega

/-- A row of the sprite toggles exactly the cells its set bits land on. -/
theorem drawRow_cell (px py row : Nat) (b : Byte) (d : Display × Bool) (r : Fin 32) (c : Fin 64) :
    (drawRow px py row b d).1.cell r c =
      (d.1.cell r c ^^ (decide (r = wrapRow (py + row)) && colsCover px b (List.range 8) c)) :=
  foldl_drawBit_cell px py row b _ List.nodup_range range8_lt d r c

/-- A row of the sprite notes a collision exactly when a set bit lands on a cell that was on. -/
theorem drawRow_hit (px py row : Nat) (b : Byte) (d : Display × Bool) :
    (drawRow px py row b d).2 = true ↔ d.2 = true ∨
      ∃ c, colsCover px b (List.range 8) c = true ∧ d.1.cell (wrapRow (py + row)) c = true := by
  rw [drawRow, foldl_drawBit_hit px py row b _ List.nodup_range range8_lt d, Bool.or_eq_true, List.any_eq_true]
  refine or_congr_right ⟨?_, ?_⟩
  · rintro ⟨k, hk, h⟩
    rw [Bool.and_eq_true] at h
    exact ⟨_, colsCover_eq_true.mpr ⟨k, hk, h.1, rfl⟩, h.2⟩
  · rintro ⟨c, hc, h⟩
    obtain ⟨k, hk, hb, rfl⟩ := colsCover_eq_true.mp hc
    exact ⟨k, hk, by simp [hb, h]⟩

/-- Some set bit of the sprite rows (from number `row` on) lands on the cell (r, c). -/
def rowsCover (px py : Nat) (r : Fin 32) (c : Fin 64) : Nat → List Byte → Bool
  | _, [] => false
  | row, b :: bs =>
    (decide (r = wrapRow (py + row)) && colsCover px b (List.range 8) c) || rowsCover px py r c (row + 1) bs

theorem rowsCover_eq_true {px py : Nat} {r : Fin 32} {c : Fin 64} {row : Nat} {bs : List Byte} :
    rowsCover px py r c row bs = true ↔
      ∃ k, ∃ h : k < bs.length, r = wrapRow (py + (row + k)) ∧ colsCover px bs[k] (List.range 8) c = true := by
  induction bs generalizing row with
  | nil => simp [rowsCover]
  | cons b bs ih =>
    simp only [rowsCover, Bool.or_eq_true, Bool.and_eq_true, decide_eq_true_eq, ih]
    constructor
    · rintro (⟨hr, hc⟩ | ⟨k, hk, hr, hc⟩)
      · exact ⟨0, by simp, by simpa using hr, by simpa using hc⟩
      · exact ⟨k + 1, by simpa using hk, by rw [hr]; congr 2; omega, by simpa using hc⟩
    · rintro ⟨k, hk, hr, hc⟩
      cases k with
      | zero => exact .inl ⟨by simpa using hr, by simpa using hc⟩
      | succ k => exact .inr ⟨k, by simpa using hk, by rw [hr]; congr 2; omega, by simpa using hc⟩

/-- A later row never lands where an earlier row did. -/
theorem rowsCover_later {px py : Nat} {r : Fin 32} {c : Fin 64} {row : Nat} {bs : List Byte}
    (hlen : row + 1 + bs.length ≤ 32) (hr : r = wrapRow (py + row)) : rowsCover px py r c (row + 1) bs = false := by
  rw [Bool.eq_false_iff]
  intro h
  obtain ⟨k, hk, e, -⟩ := rowsCover_eq_true.mp h
  have := wrapRow_inj (hr.symm.trans e) (by omega) (by omega)
  omega

/-- Drawing toggles exactly the cells the sprite covers. -/
theorem drawRows_cell (px py : Nat) (row : Nat) (bs : List Byte) (hlen : row + bs.length ≤ 32)
    (d : Display × Bool) (r : Fin 32) (c : Fin 64) :
    (drawRows px py row bs d).1.cell r c = (d.1.cell r c ^^ rowsCover px py r c row bs) := by
  induction bs generalizing row d with
  | nil => simp [drawRows, rowsCover]
  | cons b bs ih =>
    simp only [List.length_cons] at hlen
    rw [drawRows, ih (row + 1) (by omega), drawRow_cell, rowsCover]
    by_cases hr : r = wrapRow (py + row)
    · rw [rowsCover_later (by omega) hr]; simp [hr]
    · simp [hr]

/-- Drawing notes a collision exactly when the sprite covers a cell that was on before the draw. -/
theorem drawRows_hit (px py : Nat) (row : Nat) (bs : List Byte) (hlen : row + bs.length ≤ 32) (d : Display × Bool) :
    (drawRows px py row bs d).2 = true ↔
      d.2 = true ∨ ∃ r c, rowsCover px py r c row bs = true ∧ d.1.cell r c = true := by
  induction bs generalizing row d with
  | nil => simp [drawRows, rowsCover]
  | cons b bs ih =>
    simp only [List.length_cons] at hlen
    rw [drawRows, ih (row + 1) (by omega), drawRow_hit, or_assoc]
    refine or_congr_right ⟨?_, ?_⟩
    · rintro (⟨c, hc, hd⟩ | ⟨r, c, hc, hd⟩)
      · exact ⟨_, c, by simp [rowsCover, hc], hd⟩
      · have hr : r ≠ wrapRow (py + row) := fun e => by
          rw [rowsCover_later (by omega) e] at hc; cases hc
        rw [drawRow_cell] at hd
        exact ⟨r, c, by simp [rowsCover, hc], by simpa [hr] using hd⟩
    · rintro ⟨r, c, hc, hd⟩
      simp only [rowsCover, Bool.or_eq_true, Bool.and_eq_true, decide_eq_true_eq] at hc
      rcases hc with ⟨hr, hc⟩ | hc
      · exact .inl ⟨c, hc, hr ▸ hd⟩
      · right
        have hr : r ≠ wrapRow (py + row) := fun e => by
          rw [rowsCover_later (by omega) e] at hc; cases hc
        exact ⟨r, c, hc, by rw [drawRow_cell]; simpa [hr] using hd⟩

end Sys2Proof.Machine
end

