-- ==== Sys2Proof/Laws/Environment.lean ====
section
/-! SUPPORT. What the host operations do, said once. -/

namespace Sys2Proof.Machine

/-- A load that goes through copied an image that fits (70_reset_and_hazards.md R152). -/
theorem State.load_next {s t : State} {image : List Byte} (h : s.load image = .next t) :
    image.length ≤ 3584 ∧ t = { s with mem := s.mem.writeBytes 0x200 image } := by
  unfold State.load at h
  split at h
  · cases h
  · rename_i hl
    exact ⟨Nat.le_of_not_gt hl, (Host.Outcome.next.inj h).symm⟩

/-- A load keeps memory canonical. -/
theorem State.load_wf {s t : State} {image : List Byte} (hs : s.mem.wf) (h : s.load image = .next t) : t.mem.wf := by
  obtain ⟨hl, rfl⟩ := State.load_next h
  exact Memory.wf_writeBytes image hs (.inr (by omega))

/-- An operation between cycles keeps the phase and acts on the core's state. -/
theorem Session.between_next {f : State → State} {c d : Session} (h : c.between f = .next d) :
    ∃ s, c.state = some s ∧ d.state = some (f s) := by
  cases c <;> simp only [Session.between] at h <;> cases h <;> exact ⟨_, rfl, rfl⟩

/-- A cycle that goes through is a step of the core, and the run has begun. -/
theorem Session.cycle_next {c d : Session} (h : c.cycle = .next d) :
    ∃ s t, c.state = some s ∧ step s = .next t ∧ d = .running t := by
  unfold Session.cycle at h
  split at h
  · cases h
  · rename_i s hs
    split at h <;> cases h
    rename_i t ht
    exact ⟨s, t, hs, ht, rfl⟩

/-- A run goes through exactly when its first operation does and the rest does from there. -/
theorem runEnv_cons_next {op : EnvOp} {ops : List EnvOp} {c e : Session} (h : runEnv (op :: ops) c = .next e) :
    ∃ d, op.apply c = .next d ∧ runEnv ops d = .next e := by
  simp only [runEnv] at h
  split at h
  · exact ⟨_, ‹_›, h⟩
  · cases h
  · cases h

end Sys2Proof.Machine
end

