-- ==== Sys2Proof/Laws/Ops.lean ====
section
/-! SUPPORT. What each shared operation can do, said once: the block accesses, the stack, the keypad, the fault and
the frame of each, and that each keeps memory canonical. -/

namespace Sys2Proof.Machine

/-! ### Frames -/

theorem ChangesOnly.refl (s : State) (touched : Part → Prop) : ChangesOnly s s touched := by
  intro p _; cases p <;> rfl

theorem ChangesOnly.weaken {s t : State} {small large : Part → Prop} (h : ChangesOnly s t small)
    (hsub : ∀ p, small p → large p) : ChangesOnly s t large := fun p hp => h p (fun hs => hp (hsub p hs))

theorem ChangesOnly.trans {s t u : State} {touched : Part → Prop} (h : ChangesOnly s t touched)
    (h' : ChangesOnly t u touched) : ChangesOnly s u touched := by
  intro p hp
  have e := h p hp
  have e' := h' p hp
  cases p <;> exact Eq.trans e' e

theorem setV_changes (s : State) (x : Reg) (b : Byte) : ChangesOnly s (s.setV x b) (fun p => p = .v x) := by
  intro p hp
  cases p with
  | v y => exact State.setV_getV_of_ne s b (fun e => hp (e ▸ rfl))
  | _ => rfl

theorem setResultFlag_changes (s : State) (x : Reg) (r f : Byte) :
    ChangesOnly s (s.setResultFlag x r f) (fun p => p = .v x ∨ p = .v VF) :=
  ((setV_changes s x r).weaken (fun _ => .inl)).trans ((setV_changes _ VF f).weaken (fun _ => .inr))

theorem setPc_changes (s : State) (a : Word) : ChangesOnly s (s.setPc a) (fun p => p = .pc) := by
  intro p hp; cases p <;> first | rfl | exact absurd rfl hp

theorem setI_changes (s : State) (a : Word) : ChangesOnly s (s.setI a) (fun p => p = .i) := by
  intro p hp; cases p <;> first | rfl | exact absurd rfl hp

theorem setDt_changes (s : State) (b : Byte) : ChangesOnly s (s.setDt b) (fun p => p = .dt) := by
  intro p hp; cases p <;> first | rfl | exact absurd rfl hp

theorem setSt_changes (s : State) (b : Byte) : ChangesOnly s (s.setSt b) (fun p => p = .st) := by
  intro p hp; cases p <;> first | rfl | exact absurd rfl hp

theorem skipIf_changes (s : State) (c : Bool) : ChangesOnly s (s.skipIf c) (fun p => p = .pc) := by
  cases c
  · exact ChangesOnly.refl s _
  · exact setPc_changes s _

theorem consumeDraw_changes (s : State) : ChangesOnly s s.consumeDraw (fun p => p = .draws) := by
  intro p hp; cases p <;> first | rfl | exact absurd rfl hp

theorem reportUnknown_changes (s : State) (op a : Word) :
    ChangesOnly s (s.reportUnknown op a) (fun p => p = .reports) := by
  intro p hp; cases p <;> first | rfl | exact absurd rfl hp

/-- Raising a fatal fault takes it, and nothing else. -/
theorem raiseFatal_taken (s : State) (code : FaultCode) (a : Word) : FatalTaken s (s.raiseFatal code a) code a := by
  refine ⟨rfl, rfl, rfl, fun p hp => ?_⟩
  cases p <;> first | rfl | exact absurd (by simp [Part.isStatus]) hp

/-- The fetch address, where pc is known to be a + 2. -/
theorem State.fetchAddr_eq {s : State} {a : Word} (h : s.pc = a + 2#16) : s.fetchAddr = a := by
  simp [State.fetchAddr, h]

/-! ### Blocks through I -/

theorem blockInRange_iff (base len : Nat) : blockInRange base len = true ↔ len = 0 ∨ base + (len - 1) ≤ 0xFFF := by
  simp [blockInRange]

theorem State.readBlock_none (s : State) (len : Nat) :
    s.readBlock len = none ↔ 0 < len ∧ s.i.toNat + (len - 1) > 0xFFF := by
  unfold State.readBlock
  split <;> rename_i h <;> rw [blockInRange_iff] at h <;> simp <;> omega

theorem State.readBlock_some {s : State} {len : Nat} {bs : List Byte} (h : s.readBlock len = some bs) :
    bs = (List.range len).map (fun k => s.mem.read (s.i.toNat + k)) ∧ (len = 0 ∨ s.i.toNat + (len - 1) ≤ 0xFFF) := by
  unfold State.readBlock at h
  split at h
  · exact ⟨(Option.some.inj h).symm, (blockInRange_iff _ _).mp ‹_›⟩
  · cases h

/-- A byte of a block that was read is the byte at its address. -/
theorem State.readBlock_getD {s : State} {len : Nat} {bs : List Byte} (h : s.readBlock len = some bs) {k : Nat}
    (hk : k < len) (d : Byte) : bs.getD k d = s.mem.read (s.i.toNat + k) := by
  rw [(State.readBlock_some h).1]; simp [hk]

theorem State.readBlock_length {s : State} {len : Nat} {bs : List Byte} (h : s.readBlock len = some bs) :
    bs.length = len := by
  rw [(State.readBlock_some h).1]; simp

theorem State.writeBlock_none (s : State) (bs : List Byte) :
    s.writeBlock bs = none ↔ 0 < bs.length ∧ s.i.toNat + (bs.length - 1) > 0xFFF := by
  unfold State.writeBlock
  split <;> rename_i h <;> rw [blockInRange_iff] at h <;> simp <;> omega

theorem State.writeBlock_some {s t : State} {bs : List Byte} (h : s.writeBlock bs = some t) :
    t = { s with mem := s.mem.writeBytes s.i.toNat bs } ∧
      (bs.length = 0 ∨ s.i.toNat + (bs.length - 1) ≤ 0xFFF) := by
  unfold State.writeBlock at h
  split at h
  · exact ⟨(Option.some.inj h).symm, (blockInRange_iff _ _).mp ‹_›⟩
  · cases h

/-- A written block holds its bytes, and nothing outside it is changed. -/
theorem State.writeBlock_read {s t : State} {bs : List Byte} (h : s.writeBlock bs = some t) (k : Nat)
    (hk : k < bs.length) : t.mem.read (s.i.toNat + k) = bs.getD k 0#8 := by
  rw [(State.writeBlock_some h).1]
  simp only [Memory.read_writeBytes]
  rw [if_pos ⟨by omega, by omega⟩, Nat.add_sub_cancel_left]

theorem State.writeBlock_changes {s t : State} {bs : List Byte} (h : s.writeBlock bs = some t) :
    ChangesOnly s t (fun p => ∃ k < bs.length, p = .mem (s.i.toNat + k)) := by
  rw [(State.writeBlock_some h).1]
  intro p hp
  cases p with
  | mem a =>
    simp only [Part.agrees, Memory.read_writeBytes]
    rw [if_neg]
    rintro ⟨h1, h2⟩
    have e : s.i.toNat + (a - s.i.toNat) = a := by omega
    exact hp ⟨a - s.i.toNat, by omega, by rw [e]⟩
  | _ => rfl

theorem State.writeBlock_wf {s t : State} {bs : List Byte} (hs : s.mem.wf) (h : s.writeBlock bs = some t) :
    t.mem.wf := by
  obtain ⟨rfl, hr⟩ := State.writeBlock_some h
  exact Memory.wf_writeBytes bs hs (hr.imp List.eq_nil_of_length_eq_zero id)

theorem State.regsUpTo_length (s : State) (x : Reg) : (s.regsUpTo x).length = x.val + 1 := by
  simp [State.regsUpTo]

theorem State.regsUpTo_getD (s : State) {x k : Reg} (h : k ≤ x) (d : Byte) :
    (s.regsUpTo x).getD k.val d = s.getV k := by
  have hk : k.val < x.val + 1 := by have := Fin.le_def.mp h; omega
  simp [State.regsUpTo, State.getV_eq, hk]

theorem decimalDigits_length (b : Byte) : (decimalDigits b).length = 3 := rfl

/-- Loading a list of registers changes exactly those it names. -/
theorem setRegs_changes (s : State) (bs : List Byte) :
    ChangesOnly s (s.setRegs bs) (fun p => ∃ k : Reg, k.val < bs.length ∧ p = .v k) := by
  intro p hp
  cases p with
  | v y =>
    have hy : ¬ y.val < bs.length := fun h => hp ⟨y, h, rfl⟩
    simp [Part.agrees, State.setRegs_getV, List.getElem?_eq_none (by omega : bs.length ≤ y.val)]
  | _ => simp only [Part.agrees, State.setRegs_i, State.setRegs_pc, State.setRegs_sp, State.setRegs_stack,
      State.setRegs_dt, State.setRegs_st, State.setRegs_disp, State.setRegs_key, State.setRegs_mem, State.setRegs_halted,
      State.setRegs_faultCode, State.setRegs_faultAddr, State.setRegs_reports, State.setRegs_draws]

/-! ### The stack -/

theorem State.pushPc_none (s : State) : s.pushPc = none ↔ s.sp.val = 16 := by
  unfold State.pushPc
  split <;> simp <;> omega

/-- A push writes pc at stack[sp] and counts sp up. -/
theorem State.pushPc_some {s t : State} (h : s.pushPc = some t) :
    ∃ hsp : s.sp.val < 16,
      t = { s with stack := s.stack.set s.sp.val s.pc, sp := ⟨s.sp.val + 1, by omega⟩ } := by
  unfold State.pushPc at h
  split at h
  · exact ⟨‹_›, (Option.some.inj h).symm⟩
  · cases h

theorem State.popPc_none (s : State) : s.popPc = none ↔ s.sp.val = 0 := by
  unfold State.popPc
  split <;> simp [*]

/-- A pop counts sp down and takes pc from stack[sp]. -/
theorem State.popPc_some {s t : State} (h : s.popPc = some t) :
    ∃ _ : s.sp.val ≠ 0, t = { s with sp := ⟨s.sp.val - 1, by omega⟩, pc := s.stack[s.sp.val - 1] } := by
  unfold State.popPc at h
  split at h
  · cases h
  · exact ⟨‹_›, (Option.some.inj h).symm⟩

/-! ### The keypad -/

theorem State.keyAt_none (s : State) (b : Byte) : s.keyAt b = none ↔ b.toNat ≥ 16 := by
  simp [State.keyAt]

theorem State.keyAt_of_lt (s : State) {b : Byte} (h : b.toNat < 16) : s.keyAt b = some s.key[b.toNat] := by
  simp [State.keyAt, h]

theorem State.firstKey_none (s : State) : s.firstKey = none ↔ ∀ j : Key, s.key[j] = false := by
  simp [State.firstKey, List.find?_eq_none]

/-- The key found is pressed. -/
theorem State.firstKey_pressed {s : State} {k : Key} (h : s.firstKey = some k) : s.key[k] = true := by
  simpa using List.find?_some h

/-- The least pressed key is the one found (45_keys_timers.md R121). -/
theorem State.firstKey_of_least {s : State} {k : Key} (hk : s.key[k] = true)
    (hl : ∀ j : Key, j < k → s.key[j] = false) : s.firstKey = some k := by
  unfold State.firstKey
  rw [List.find?_eq_some_iff_getElem]
  refine ⟨hk, k.val, by simp, by simp, fun j hj => ?_⟩
  simpa using hl ⟨j, by omega⟩ (Fin.lt_def.mpr hj)

end Sys2Proof.Machine
end

