-- ==== Sys2Proof/Laws/PerInstr.lean ====
section
/-! SUPPORT. Facts stated per instruction. MatchesRow: the encoding of a well-formed instruction matches the row of
the opcode map it belongs to (30_encoding.md R64): its fixed bits are the row's, and SYS is none of the excluded words. -/

namespace Sys2Proof.Laws.MatchesRow

/-- The word of a well-formed instruction matches its row of the opcode map. -/
def Statement (i : Instr) : Prop := i.wf = true → i.row.matches (encode i) = true

theorem matches_of_masked {r : OpcodeRow} {op : Word} (hx : r.excluded = []) (h : op &&& r.mask = r.pattern) :
    r.matches op = true := by simp [OpcodeRow.matches, hx, h]

theorem cls : Statement .cls := fun _ => rfl
theorem ret : Statement .ret := fun _ => rfl
theorem sys (nnn : Addr) : Statement (.sys nnn) := by
  intro h
  simp only [Instr.wf, Bool.and_eq_true, bne_iff_ne, ne_eq] at h
  have h1 : encNNN 0x0#4 nnn ≠ encNNN 0x0#4 0x0E0#12 := fun e => h.1 (encNNN_inj e)
  have h2 : encNNN 0x0#4 nnn ≠ encNNN 0x0#4 0x0EE#12 := fun e => h.2 (encNNN_inj e)
  have e1 : encNNN 0x0#4 0x0E0#12 = 0x00E0#16 := rfl
  have e2 : encNNN 0x0#4 0x0EE#12 = 0x00EE#16 := rfl
  have e3 : encNNN 0x0#4 0#12 = 0x0000#16 := rfl
  rw [e1] at h1; rw [e2] at h2
  simp [OpcodeRow.matches, Instr.row, encode, encNNN_masked, e3, h1, h2]
theorem jp (nnn : Addr) : Statement (.jp nnn) := fun _ => matches_of_masked rfl (encNNN_masked _ nnn)
theorem call (nnn : Addr) : Statement (.call nnn) := fun _ => matches_of_masked rfl (encNNN_masked _ nnn)
theorem seImm (x : Reg) (kk : Byte) : Statement (.seImm x kk) := fun _ => matches_of_masked rfl (encXKK_masked_top _ x kk)
theorem sneImm (x : Reg) (kk : Byte) : Statement (.sneImm x kk) := fun _ => matches_of_masked rfl (encXKK_masked_top _ x kk)
theorem seReg (x y : Reg) : Statement (.seReg x y) := fun _ => matches_of_masked rfl (encXYN_masked_function _ x y _)
theorem ldImm (x : Reg) (kk : Byte) : Statement (.ldImm x kk) := fun _ => matches_of_masked rfl (encXKK_masked_top _ x kk)
theorem addImm (x : Reg) (kk : Byte) : Statement (.addImm x kk) := fun _ => matches_of_masked rfl (encXKK_masked_top _ x kk)
theorem ldReg (x y : Reg) : Statement (.ldReg x y) := fun _ => matches_of_masked rfl (encXYN_masked_function _ x y _)
theorem orReg (x y : Reg) : Statement (.orReg x y) := fun _ => matches_of_masked rfl (encXYN_masked_function _ x y _)
theorem andReg (x y : Reg) : Statement (.andReg x y) := fun _ => matches_of_masked rfl (encXYN_masked_function _ x y _)
theorem xorReg (x y : Reg) : Statement (.xorReg x y) := fun _ => matches_of_masked rfl (encXYN_masked_function _ x y _)
theorem addReg (x y : Reg) : Statement (.addReg x y) := fun _ => matches_of_masked rfl (encXYN_masked_function _ x y _)
theorem sub (x y : Reg) : Statement (.sub x y) := fun _ => matches_of_masked rfl (encXYN_masked_function _ x y _)
theorem shr (x y : Reg) : Statement (.shr x y) := fun _ => matches_of_masked rfl (encXYN_masked_function _ x y _)
theorem subn (x y : Reg) : Statement (.subn x y) := fun _ => matches_of_masked rfl (encXYN_masked_function _ x y _)
theorem shl (x y : Reg) : Statement (.shl x y) := fun _ => matches_of_masked rfl (encXYN_masked_function _ x y _)
theorem sneReg (x y : Reg) : Statement (.sneReg x y) := fun _ => matches_of_masked rfl (encXYN_masked_function _ x y _)
theorem ldI (nnn : Addr) : Statement (.ldI nnn) := fun _ => matches_of_masked rfl (encNNN_masked _ nnn)
theorem jpV0 (nnn : Addr) : Statement (.jpV0 nnn) := fun _ => matches_of_masked rfl (encNNN_masked _ nnn)
theorem rnd (x : Reg) (kk : Byte) : Statement (.rnd x kk) := fun _ => matches_of_masked rfl (encXKK_masked_top _ x kk)
theorem drw (x y : Reg) (n : Fin 16) : Statement (.drw x y n) := fun _ => matches_of_masked rfl (encXYN_masked_top _ x y _)
theorem skp (x : Reg) : Statement (.skp x) := fun _ => matches_of_masked rfl (encXKK_masked_function _ x _)
theorem sknp (x : Reg) : Statement (.sknp x) := fun _ => matches_of_masked rfl (encXKK_masked_function _ x _)
theorem ldVxDt (x : Reg) : Statement (.ldVxDt x) := fun _ => matches_of_masked rfl (encXKK_masked_function _ x _)
theorem ldVxK (x : Reg) : Statement (.ldVxK x) := fun _ => matches_of_masked rfl (encXKK_masked_function _ x _)
theorem ldDtVx (x : Reg) : Statement (.ldDtVx x) := fun _ => matches_of_masked rfl (encXKK_masked_function _ x _)
theorem ldStVx (x : Reg) : Statement (.ldStVx x) := fun _ => matches_of_masked rfl (encXKK_masked_function _ x _)
theorem addI (x : Reg) : Statement (.addI x) := fun _ => matches_of_masked rfl (encXKK_masked_function _ x _)
theorem ldF (x : Reg) : Statement (.ldF x) := fun _ => matches_of_masked rfl (encXKK_masked_function _ x _)
theorem ldB (x : Reg) : Statement (.ldB x) := fun _ => matches_of_masked rfl (encXKK_masked_function _ x _)
theorem storeRegs (x : Reg) : Statement (.storeRegs x) := fun _ => matches_of_masked rfl (encXKK_masked_function _ x _)
theorem loadRegs (x : Reg) : Statement (.loadRegs x) := fun _ => matches_of_masked rfl (encXKK_masked_function _ x _)

end Sys2Proof.Laws.MatchesRow
end

