-- ==== Sys2Proof/Laws/Step.lean ====
section
/-! SUPPORT. What a step can do, said once; and what each meaning that may take a fatal fault does, in its two cases. -/

namespace Sys2Proof.Machine

/-! ### The step -/

theorem fetchOverrun_iff (s : State) : s.fetchOverrun = true ↔ s.pc.toNat > 4094 := by simp [State.fetchOverrun]

/-- Everything a step that answers a next state can have done (40_cycle.md R71). -/
theorem step_cases {s t : State} (h : step s = .next t) :
    s.halted = false ∧
      ((s.pc.toNat > 4094 ∧ t = s.raiseFatal .pcOverrun s.pc) ∨
        (s.pc.toNat ≤ 4094 ∧
          ((∃ i, decodeWord s.fetchWord = some i ∧ exec i s.fetchAdvance = .next t) ∨
            (decodeWord s.fetchWord = none ∧ t = s.fetchAdvance.reportUnknown s.fetchWord s.pc)))) := by
  unfold step at h
  split at h
  · cases h
  · rename_i hh
    refine ⟨by simpa using hh, ?_⟩
    split at h
    · rename_i ho
      exact .inl ⟨(fetchOverrun_iff s).mp ho, (Host.Outcome.next.inj h).symm⟩
    · rename_i ho
      rw [fetchOverrun_iff] at ho
      refine .inr ⟨by omega, ?_⟩
      split at h
      · rename_i i hi; exact .inl ⟨i, hi, h⟩
      · rename_i hi; exact .inr ⟨hi, (Host.Outcome.next.inj h).symm⟩

theorem step_of_halted {s : State} (h : s.halted = true) : step s = .fault .halted := by simp [step, h]

theorem step_of_overrun {s : State} (h : s.halted = false) (hp : s.pc.toNat > 4094) :
    step s = .next (s.raiseFatal .pcOverrun s.pc) := by
  simp [step, h, (fetchOverrun_iff s).mpr hp]

theorem CanFetch.no_overrun {s : State} (h : s.CanFetch) : s.fetchOverrun = false := by
  have h1 := h.2
  rw [Bool.eq_false_iff, ne_eq, fetchOverrun_iff]
  omega

theorem step_of_decoded {s : State} {i : Instr} (h : s.CanFetch) (hi : decodeWord s.fetchWord = some i) :
    step s = exec i s.fetchAdvance := by
  simp [step, h.1, CanFetch.no_overrun h, hi]

theorem step_of_unknown {s : State} (h : s.CanFetch) (hi : decodeWord s.fetchWord = none) :
    step s = .next (s.fetchAdvance.reportUnknown s.fetchWord s.pc) := by
  simp [step, h.1, CanFetch.no_overrun h, hi]

/-- The fetch is big-endian (40_cycle.md R74). -/
theorem fetchWord_toNat (s : State) :
    s.fetchWord.toNat = (s.mem.read s.pc.toNat).toNat * 256 + (s.mem.read (s.pc.toNat + 1)).toNat :=
  toNat_wordOfBytes _ _

/-! ### The meanings that may take a fatal fault -/

theorem execCall_of_room {s : State} (nnn : Addr) (h : s.sp.val < 16) :
    execCall nnn s = .next (State.setPc
      { s with stack := s.stack.set s.sp.val s.pc, sp := ⟨s.sp.val + 1, by omega⟩ } (zextAddr nnn)) := by
  simp [execCall, State.pushPc, h]

theorem execCall_of_full {s : State} (nnn : Addr) (h : s.sp.val = 16) :
    execCall nnn s = .next (s.raiseFatal .stackOverflow s.fetchAddr) := by
  simp [execCall, (State.pushPc_none s).mpr h]

theorem execRet_of_some {s : State} (h : s.sp.val ≠ 0) :
    execRet s = .next { s with sp := ⟨s.sp.val - 1, by omega⟩, pc := s.stack[s.sp.val - 1] } := by
  simp [execRet, State.popPc, h]

theorem execRet_of_empty {s : State} (h : s.sp.val = 0) :
    execRet s = .next (s.raiseFatal .stackUnderflow s.fetchAddr) := by
  simp [execRet, (State.popPc_none s).mpr h]

theorem execLdB_cases (x : Reg) (s : State) :
    (s.i.toNat + 2 ≤ 0xFFF ∧ ∃ t, s.writeBlock (decimalDigits (s.getV x)) = some t ∧ execLdB x s = .next t) ∨
    (s.i.toNat + 2 > 0xFFF ∧ execLdB x s = .next (s.raiseFatal .memRange s.fetchAddr)) := by
  unfold execLdB
  cases h : s.writeBlock (decimalDigits (s.getV x)) with
  | none => exact .inr ⟨by have := (State.writeBlock_none _ _).mp h; simp [decimalDigits_length] at this; omega, rfl⟩
  | some t =>
    refine .inl ⟨?_, t, rfl, rfl⟩
    have := (State.writeBlock_some h).2
    simp [decimalDigits_length] at this; omega

theorem execStoreRegs_cases (x : Reg) (s : State) :
    (s.i.toNat + x.val ≤ 0xFFF ∧ ∃ t, s.writeBlock (s.regsUpTo x) = some t ∧ execStoreRegs x s = .next t) ∨
    (s.i.toNat + x.val > 0xFFF ∧ execStoreRegs x s = .next (s.raiseFatal .memRange s.fetchAddr)) := by
  unfold execStoreRegs
  cases h : s.writeBlock (s.regsUpTo x) with
  | none => exact .inr ⟨by have := (State.writeBlock_none _ _).mp h; simp [State.regsUpTo_length] at this; omega, rfl⟩
  | some t =>
    refine .inl ⟨?_, t, rfl, rfl⟩
    have := (State.writeBlock_some h).2
    simp [State.regsUpTo_length] at this; omega

theorem execLoadRegs_cases (x : Reg) (s : State) :
    (s.i.toNat + x.val ≤ 0xFFF ∧ ∃ bs, s.readBlock (x.val + 1) = some bs ∧ execLoadRegs x s = .next (s.setRegs bs)) ∨
    (s.i.toNat + x.val > 0xFFF ∧ execLoadRegs x s = .next (s.raiseFatal .memRange s.fetchAddr)) := by
  unfold execLoadRegs
  cases h : s.readBlock (x.val + 1) with
  | none => exact .inr ⟨by have := (State.readBlock_none _ _).mp h; omega, rfl⟩
  | some bs =>
    refine .inl ⟨?_, bs, rfl, rfl⟩
    have := (State.readBlock_some h).2
    omega

theorem execDrw_cases (x y : Reg) (n : Fin 16) (s : State) :
    ((n.val = 0 ∨ s.i.toNat + (n.val - 1) ≤ 0xFFF) ∧ ∃ sprite, s.readBlock n.val = some sprite ∧
      execDrw x y n s = .next (State.setV
        { s with disp := (drawRows (s.spriteCol x) (s.spriteRow y) 0 sprite (s.disp, false)).1 } VF
        (collisionFlag (drawRows (s.spriteCol x) (s.spriteRow y) 0 sprite (s.disp, false)).2))) ∨
    (n.val > 0 ∧ s.i.toNat + (n.val - 1) > 0xFFF ∧ execDrw x y n s = .next (s.raiseFatal .memRange s.fetchAddr)) := by
  unfold execDrw
  cases h : s.readBlock n.val with
  | none => exact .inr ⟨((State.readBlock_none _ _).mp h).1, ((State.readBlock_none _ _).mp h).2, rfl⟩
  | some sprite => exact .inl ⟨(State.readBlock_some h).2, sprite, rfl, rfl⟩

theorem execSkp_of_key {s : State} {x : Reg} (h : (s.getV x).toNat < 16) :
    execSkp x s = .next (s.skipIf s.key[(s.getV x).toNat]) := by simp [execSkp, State.keyAt_of_lt s h]

theorem execSkp_of_no_key {s : State} {x : Reg} (h : (s.getV x).toNat ≥ 16) :
    execSkp x s = .next (s.raiseFatal .keyRange s.fetchAddr) := by simp [execSkp, (State.keyAt_none s _).mpr h]

theorem execSknp_of_key {s : State} {x : Reg} (h : (s.getV x).toNat < 16) :
    execSknp x s = .next (s.skipIf !s.key[(s.getV x).toNat]) := by simp [execSknp, State.keyAt_of_lt s h]

theorem execSknp_of_no_key {s : State} {x : Reg} (h : (s.getV x).toNat ≥ 16) :
    execSknp x s = .next (s.raiseFatal .keyRange s.fetchAddr) := by simp [execSknp, (State.keyAt_none s _).mpr h]

theorem execLdVxK_of_none {s : State} (x : Reg) (h : ∀ j : Key, s.key[j] = false) :
    execLdVxK x s = .next (s.setPc (s.pc - 2#16)) := by simp [execLdVxK, (State.firstKey_none s).mpr h]

theorem execLdVxK_of_least {s : State} (x : Reg) {k : Key} (hk : s.key[k] = true)
    (hl : ∀ j : Key, j < k → s.key[j] = false) : execLdVxK x s = .next (s.setV x (keyByte k)) := by
  simp [execLdVxK, State.firstKey_of_least hk hl]

/-- The cells that the drawn rows cover are those of `SpriteCovers` (44_display.md R113, R114). -/
theorem rowsCover_iff_SpriteCovers {s : State} {n : Fin 16} {sprite : List Byte}
    (h : s.readBlock n.val = some sprite) (x y : Reg) (r : Fin 32) (c : Fin 64) :
    rowsCover (s.spriteCol x) (s.spriteRow y) r c 0 sprite = true ↔ SpriteCovers s x y n r c := by
  have hlen := State.readBlock_length h
  have hget : ∀ k, ∀ hk : k < sprite.length, sprite[k] = s.mem.read (s.i.toNat + k) := by
    intro k hk
    have := State.readBlock_getD h (k := k) (by omega) 0#8
    rwa [List.getD_eq_getElem _ _ hk] at this
  have hbit : ∀ (b : Byte) (j : Nat), b.getLsbD j = true ↔ b.toNat / 2 ^ j % 2 = 1 := by
    intro b j
    rw [BitVec.getLsbD, Nat.testBit_eq_decide_div_mod_eq]; simp
  rw [rowsCover_eq_true]
  unfold SpriteCovers
  constructor
  · rintro ⟨k, hk, hr, hc⟩
    obtain ⟨col, hcol, hb, hc⟩ := colsCover_eq_true.mp hc
    rw [hget k hk] at hb
    refine ⟨k, by omega, col, List.mem_range.mp hcol, (hbit _ _).mp hb, ?_, ?_⟩
    · simp [hr, wrapRow, Fin.ofNat, State.spriteRow]
    · simp [hc, wrapCol, Fin.ofNat, State.spriteCol]
  · rintro ⟨k, hk, col, hcol, hb, hr, hc⟩
    have hk' : k < sprite.length := by omega
    refine ⟨k, hk', Fin.ext (by simp [hr, wrapRow, Fin.ofNat, State.spriteRow]), ?_⟩
    refine colsCover_eq_true.mpr ⟨col, List.mem_range.mpr hcol, ?_, Fin.ext (by simp [hc, wrapCol, Fin.ofNat, State.spriteCol])⟩
    rw [hget k hk']
    exact (hbit _ _).mpr hb

end Sys2Proof.Machine
end

