-- ==== Sys2Proof/Tests/Slice0.lean ====
section
/-! SUPPORT. The model's own tests: words written out from the spec's encodings, the well-formedness smoke test, one
step each on small states with the values of spec/95_test_vectors.md (the vector's name stands above each), and for
every statement with hypotheses a concrete state and operands that meet them. -/

namespace Sys2Proof.Tests

open Sys2Proof.Machine

/-! ### Helpers -/

/-- Reset with pc at a. -/
def startAt (a : Word) : State := State.reset.setPc a

/-- One step of the opcode at pc answers a next state with the property p. -/
def runsTo (s : State) (op : Word) (p : State → Bool) : Bool :=
  match step (s.placeWord op) with
  | .next t => p t
  | .fault _ => false
  | .refused _ => false

/-- The meaning of an instruction answers a next state with the property p. -/
def execsTo (i : Instr) (s : State) (p : State → Bool) : Bool :=
  match exec i s with
  | .next t => p t
  | .fault _ => false
  | .refused _ => false

/-- In t the fatal fault with this code and address stands. -/
def faulted (t : State) (code : FaultCode) (addr : Word) : Bool :=
  t.halted && t.faultCode == some code && t.faultAddr == addr

/-- The state has a byte at an address of memory. -/
def poke (s : State) (a : Nat) (b : Byte) : State := { s with mem := s.mem.write a b }

/-- The state has a display cell on. -/
def light (s : State) (r : Fin 32) (c : Fin 64) : State := { s with disp := s.disp.toggle r c }

/-- The state has one more key pressed. -/
def press (s : State) (k : Key) : State := { s with key := s.key.set k true }

/-- The number of cells that are on in a row. -/
def lit (s : State) (r : Fin 32) : Nat := (List.finRange 64).countP (fun c => s.disp.cell r c)

/-- The state has sp return addresses on its stack, each 0x202. -/
def nested (s : State) (n : Fin 17) : State := { s with sp := n, stack := Vector.replicate 16 0x202#16 }

theorem exists_of_runsTo {s : State} {op : Word} {p : State → Bool} (h : runsTo s op p = true) :
    ∃ t, step (s.placeWord op) = .next t ∧ p t = true := by
  unfold runsTo at h
  split at h
  · exact ⟨_, ‹_›, h⟩
  · cases h
  · cases h

theorem exists_of_execsTo {i : Instr} {s : State} {p : State → Bool} (h : execsTo i s p = true) :
    ∃ t, exec i s = .next t ∧ p t = true := by
  unfold execsTo at h
  split at h
  · exact ⟨_, ‹_›, h⟩
  · cases h
  · cases h

/-! ### Decoding: words written out from the patterns of 30_encoding.md R64 -/

theorem test_decode_group0 :
    decodeWord 0b0000_0000_1110_0000#16 = some .cls ∧ decodeWord 0b0000_0000_1110_1110#16 = some .ret ∧
    decodeWord 0b0000_0000_1110_0001#16 = some (.sys 0x0E1#12) := by decide
theorem test_decode_jumps_and_calls :
    decodeWord 0b0001_1010_1011_1100#16 = some (.jp 0xABC#12) ∧
    decodeWord 0b0010_0011_0000_0001#16 = some (.call 0x301#12) ∧
    decodeWord 0b1011_0011_1111_0000#16 = some (.jpV0 0x3F0#12) ∧
    decodeWord 0b1010_0001_0010_0011#16 = some (.ldI 0x123#12) := by decide
theorem test_decode_skips :
    decodeWord 0b0011_0011_0010_1010#16 = some (.seImm 3 0x2A#8) ∧
    decodeWord 0b0100_0011_0010_1011#16 = some (.sneImm 3 0x2B#8) ∧
    decodeWord 0b0101_0001_0010_0000#16 = some (.seReg 1 2) ∧
    decodeWord 0b1001_0001_0010_0000#16 = some (.sneReg 1 2) := by decide
theorem test_decode_immediates :
    decodeWord 0b0110_1111_0100_0010#16 = some (.ldImm 15 0x42#8) ∧
    decodeWord 0b0111_0001_0000_0101#16 = some (.addImm 1 0x05#8) ∧
    decodeWord 0b1100_0010_0000_1111#16 = some (.rnd 2 0x0F#8) := by decide
theorem test_decode_alu_first :
    decodeWord 0b1000_0001_0010_0000#16 = some (.ldReg 1 2) ∧
    decodeWord 0b1000_0001_0010_0001#16 = some (.orReg 1 2) ∧
    decodeWord 0b1000_0001_0010_0010#16 = some (.andReg 1 2) ∧
    decodeWord 0b1000_0001_0010_0011#16 = some (.xorReg 1 2) ∧
    decodeWord 0b1000_0001_0010_0100#16 = some (.addReg 1 2) := by decide
theorem test_decode_alu_second :
    decodeWord 0b1000_0001_0010_0101#16 = some (.sub 1 2) ∧
    decodeWord 0b1000_0001_0010_0110#16 = some (.shr 1 2) ∧
    decodeWord 0b1000_0001_0010_0111#16 = some (.subn 1 2) ∧
    decodeWord 0b1000_0001_0010_1110#16 = some (.shl 1 2) := by decide
theorem test_decode_draw_and_keys :
    decodeWord 0b1101_0001_0010_0101#16 = some (.drw 1 2 5) ∧
    decodeWord 0b1110_0010_1001_1110#16 = some (.skp 2) ∧
    decodeWord 0b1110_0010_1010_0001#16 = some (.sknp 2) := by decide
theorem test_decode_groupF_first :
    decodeWord 0b1111_0101_0000_0111#16 = some (.ldVxDt 5) ∧
    decodeWord 0b1111_0011_0000_1010#16 = some (.ldVxK 3) ∧
    decodeWord 0b1111_0100_0001_0101#16 = some (.ldDtVx 4) ∧
    decodeWord 0b1111_0100_0001_1000#16 = some (.ldStVx 4) ∧
    decodeWord 0b1111_0010_0001_1110#16 = some (.addI 2) := by decide
theorem test_decode_groupF_second :
    decodeWord 0b1111_0000_0010_1001#16 = some (.ldF 0) ∧
    decodeWord 0b1111_0011_0011_0011#16 = some (.ldB 3) ∧
    decodeWord 0b1111_0010_0101_0101#16 = some (.storeRegs 2) ∧
    decodeWord 0b1111_0010_0110_0101#16 = some (.loadRegs 2) := by decide
/-- UK1, UK2, UK3, UK4, UK5, UK7, UK9 and UK10. -/
theorem test_decode_unknown :
    [0x5001#16, 0x512F#16, 0x8008#16, 0x800F#16, 0x9121#16, 0xE09F#16, 0xF0FF#16, 0xFA0B#16].map decodeWord =
      List.replicate 8 none := by decide
/-- The byte at the lower address is the high byte (W9), and one byte is no instruction. -/
theorem test_decode_bytes :
    decodeBytes [0xA2#8, 0x0A#8, 0xD0#8] = .ok (.ldI 0x20A#12) [0xD0#8] ∧
    decodeBytes [0x50#8, 0x11#8] = .reject (.unknownOpcode 0x5011#16) ∧
    decodeBytes [0xA2#8] = .reject .truncated ∧ decodeBytes [] = .reject .truncated := by decide
theorem test_decodeTableWord :
    decodeTableWord 16 0xD005 = some (.drw 0 0 5) ∧ decodeTableWord 16 0x00EE = some .ret ∧
    decodeTableWord 16 0x5001 = none := by decide

/-! ### Well-formedness -/

/-- The two words of group 0 that are other instructions are no SYS. -/
theorem test_wf_refuses_cls_and_ret_as_sys : (Instr.sys 0x0E0#12).wf = false ∧ (Instr.sys 0x0EE#12).wf = false := by
  decide
theorem test_wf_accepts :
    (Instr.sys 0x0E1#12).wf = true ∧ Instr.cls.wf = true ∧ (Instr.drw 15 15 15).wf = true := by decide

/-! ### The cycle -/

/-- CY1, CY5: the last two bytes of memory can be fetched. -/
theorem test_cycle_at_the_end_of_memory :
    runsTo (startAt 0xFFE#16) 0x6A5C#16 (fun t => t.getV 0xA == 0x5C#8 && t.pc == 0x1000#16) = true := by decide
/-- CY4. -/
theorem test_cycle_overrun :
    runsTo (startAt 0xFFF#16) 0x6A5C#16 (fun t => faulted t .pcOverrun 0xFFF#16 && t.pc == 0xFFF#16) = true := by
  decide
/-- CY6, first cycle: the target of a jump may be odd. -/
theorem test_cycle_odd_target : runsTo State.reset 0x1203#16 (fun t => t.pc == 0x203#16) = true := by decide
/-- UK1. -/
theorem test_cycle_unknown :
    runsTo State.reset 0x5001#16 (fun t => t.reports == [⟨0x5001#16, 0x200#16⟩] && t.pc == 0x202#16) = true := by
  decide

/-! ### Control flow -/

/-- SY2: no CLS. -/
theorem test_sys :
    runsTo (light State.reset 3 4) 0x00E1#16
      (fun t => t.pc == 0x202#16 && t.reports == [] && t.disp.cell 3 4) = true := by decide
/-- CF1. -/
theorem test_jp : runsTo State.reset 0x1ABC#16 (fun t => t.pc == 0xABC#16) = true := by decide
/-- CF4. -/
theorem test_call_last_slot :
    runsTo (nested (startAt 0x400#16) 15) 0x2300#16
      (fun t => t.stack[15] == 0x402#16 && t.sp.val == 16 && t.pc == 0x300#16) = true := by decide
/-- CF5. -/
theorem test_call_overflow :
    runsTo (nested (startAt 0x400#16) 16) 0x2300#16
      (fun t => faulted t .stackOverflow 0x400#16 && t.pc == 0x402#16 && t.sp.val == 16 &&
        t.stack == Vector.replicate 16 0x202#16) = true := by decide
/-- CF8. -/
theorem test_ret :
    runsTo { nested State.reset 2 with stack := (Vector.replicate 16 0x206#16).set 1 0x30A#16 } 0x00EE#16
      (fun t => t.sp.val == 1 && t.pc == 0x30A#16 && t.stack[1] == 0x30A#16) = true := by decide
/-- CF7. -/
theorem test_ret_underflow :
    runsTo (startAt 0x400#16) 0x00EE#16
      (fun t => faulted t .stackUnderflow 0x400#16 && t.pc == 0x402#16 && t.sp.val == 0) = true := by decide
/-- CF10: V0 and not V3. -/
theorem test_jpV0 :
    runsTo ((State.reset.setV 0 0x01#8).setV 3 0x09#8) 0xB3FF#16 (fun t => t.pc == 0x400#16) = true := by decide
/-- CF11: no masking to 12 bits. -/
theorem test_jpV0_beyond_memory :
    runsTo (State.reset.setV 0 0xFF#8) 0xBFFF#16 (fun t => t.pc == 0x10FE#16) = true := by decide
/-- CF12 and CF13. -/
theorem test_seImm :
    runsTo ((startAt 0x210#16).setV 3 0x2A#8) 0x332A#16 (fun t => t.pc == 0x214#16) = true ∧
    runsTo ((startAt 0x210#16).setV 3 0x2A#8) 0x332B#16 (fun t => t.pc == 0x212#16) = true := by decide
/-- CF14 and CF15. -/
theorem test_sneImm :
    runsTo ((startAt 0x210#16).setV 3 0x2A#8) 0x432B#16 (fun t => t.pc == 0x214#16) = true ∧
    runsTo ((startAt 0x210#16).setV 3 0x2A#8) 0x432A#16 (fun t => t.pc == 0x212#16) = true := by decide
/-- CF16 and CF17. -/
theorem test_seReg :
    runsTo ((State.reset.setV 1 7#8).setV 2 7#8) 0x5120#16 (fun t => t.pc == 0x204#16) = true ∧
    runsTo ((State.reset.setV 1 7#8).setV 2 8#8) 0x5120#16 (fun t => t.pc == 0x202#16) = true := by decide
/-- CF19 and CF20. -/
theorem test_sneReg :
    runsTo ((State.reset.setV 1 7#8).setV 2 8#8) 0x9120#16 (fun t => t.pc == 0x204#16) = true ∧
    runsTo (State.reset.setV 4 9#8) 0x9440#16 (fun t => t.pc == 0x202#16) = true := by decide

/-! ### Arithmetic and logic -/

/-- AL2. -/
theorem test_ldImm : runsTo State.reset 0x6F42#16 (fun t => t.getV 15 == 0x42#8) = true := by decide
/-- AL3. -/
theorem test_addImm :
    runsTo ((State.reset.setV 1 0xFF#8).setV 15 5#8) 0x7101#16
      (fun t => t.getV 1 == 0#8 && t.getV 15 == 5#8) = true := by decide
/-- AL5. -/
theorem test_ldReg :
    runsTo ((State.reset.setV 2 0x33#8).setV 15 0xAA#8) 0x8120#16
      (fun t => t.getV 1 == 0x33#8 && t.getV 2 == 0x33#8 && t.getV 15 == 0xAA#8) = true := by decide
/-- AL6. -/
theorem test_orReg :
    runsTo (((State.reset.setV 1 0xF0#8).setV 2 0x0F#8).setV 15 0xAA#8) 0x8121#16
      (fun t => t.getV 1 == 0xFF#8 && t.getV 15 == 0xAA#8) = true := by decide
/-- AL7. -/
theorem test_andReg :
    runsTo (((State.reset.setV 1 0xF0#8).setV 2 0x3C#8).setV 15 0xAA#8) 0x8122#16
      (fun t => t.getV 1 == 0x30#8 && t.getV 15 == 0xAA#8) = true := by decide
/-- AL8. -/
theorem test_xorReg :
    runsTo (((State.reset.setV 1 0xF0#8).setV 2 0x3C#8).setV 15 0xAA#8) 0x8123#16
      (fun t => t.getV 1 == 0xCC#8 && t.getV 15 == 0xAA#8) = true := by decide
/-- AL14: the flag overwrites the sum. -/
theorem test_addReg_into_vf :
    runsTo ((State.reset.setV 15 0xF0#8).setV 2 0x20#8) 0x8F24#16 (fun t => t.getV 15 == 1#8) = true := by decide
/-- AL15: the old VF is the addend. -/
theorem test_addReg_from_vf :
    runsTo ((State.reset.setV 1 0x01#8).setV 15 0xFF#8) 0x81F4#16
      (fun t => t.getV 1 == 0#8 && t.getV 15 == 1#8) = true := by decide
/-- AL18: equal operands give no flag. -/
theorem test_sub_equal :
    runsTo ((State.reset.setV 1 7#8).setV 2 7#8) 0x8125#16
      (fun t => t.getV 1 == 0#8 && t.getV 15 == 0#8) = true := by decide
/-- AL16 and AL17. -/
theorem test_sub :
    runsTo ((State.reset.setV 1 0x0A#8).setV 2 5#8) 0x8125#16
      (fun t => t.getV 1 == 5#8 && t.getV 15 == 1#8) = true ∧
    runsTo ((State.reset.setV 1 5#8).setV 2 0x0A#8) 0x8125#16
      (fun t => t.getV 1 == 0xFB#8 && t.getV 15 == 0#8) = true := by decide
/-- AL24: Vx is shifted, not Vy. -/
theorem test_shr :
    runsTo ((State.reset.setV 1 4#8).setV 2 0xFF#8) 0x8126#16
      (fun t => t.getV 1 == 2#8 && t.getV 15 == 0#8) = true := by decide
/-- AL25. -/
theorem test_shr_vf : runsTo (State.reset.setV 15 3#8) 0x8F06#16 (fun t => t.getV 15 == 1#8) = true := by decide
/-- AL26 and AL27. -/
theorem test_subn :
    runsTo ((State.reset.setV 1 5#8).setV 2 0x0A#8) 0x8127#16
      (fun t => t.getV 1 == 5#8 && t.getV 15 == 1#8) = true ∧
    runsTo ((State.reset.setV 1 0x0A#8).setV 2 5#8) 0x8127#16
      (fun t => t.getV 1 == 0xFB#8 && t.getV 15 == 0#8) = true := by decide
/-- AL30. -/
theorem test_shl :
    runsTo (State.reset.setV 1 0x81#8) 0x810E#16 (fun t => t.getV 1 == 2#8 && t.getV 15 == 1#8) = true := by decide
/-- AL34: the flag overwrites the result. -/
theorem test_shl_vf : runsTo (State.reset.setV 15 0x7F#8) 0x8F0E#16 (fun t => t.getV 15 == 0#8) = true := by decide
/-- AL36: with kk = 0 every draw gives 0. -/
theorem test_rnd_zero :
    ∃ t, step ((State.reset.setV 2 9#8).placeWord 0xC200#16) = .next t ∧ t.getV 2 = 0#8 ∧ t.draws = 1 := by
  refine ⟨(((State.reset.setV 2 9#8).placeWord 0xC200#16).fetchAdvance.consumeDraw.setV 2
    (Config.rndByte 0 &&& 0#8)), rfl, ?_, rfl⟩
  rw [BitVec.and_zero]
  rfl

/-! ### The index register and memory -/

/-- IM1. -/
theorem test_ldI : runsTo (State.reset.setI 0xFFFF#16) 0xA123#16 (fun t => t.i == 0x123#16) = true := by decide
/-- IM3: no 12-bit wrap and no flag. -/
theorem test_addI :
    runsTo ((State.reset.setI 0xFFF#16).setV 1 1#8) 0xF11E#16
      (fun t => t.i == 0x1000#16 && t.getV 15 == 0#8) = true := by decide
/-- IM4: 16-bit wrap and no flag. -/
theorem test_addI_wraps :
    runsTo (((State.reset.setI 0xFFFF#16).setV 1 1#8).setV 15 0x77#8) 0xF11E#16
      (fun t => t.i == 0#16 && t.getV 15 == 0x77#8) = true := by decide
/-- IM6 and IM9: the whole byte of Vx counts. -/
theorem test_ldF :
    runsTo (State.reset.setV 0 5#8) 0xF029#16 (fun t => t.i == 0x069#16) = true ∧
    runsTo (State.reset.setV 0 0xFF#8) 0xF029#16 (fun t => t.i == 0x54B#16) = true := by decide
/-- IM14. -/
theorem test_ldB :
    runsTo ((State.reset.setI 0x300#16).setV 3 0x7B#8) 0xF333#16
      (fun t => t.mem.read 0x300 == 1#8 && t.mem.read 0x301 == 2#8 && t.mem.read 0x302 == 3#8 &&
        t.i == 0x300#16) = true := by decide
/-- IM16. -/
theorem test_ldB_out_of_range :
    runsTo ((State.reset.setI 0xFFE#16).setV 3 5#8) 0xF333#16
      (fun t => faulted t .memRange 0x200#16 && t.mem.read 0xFFE == 0#8 && t.mem.read 0xFFF == 0#8 &&
        t.pc == 0x202#16) = true := by decide
/-- IM18. -/
theorem test_storeRegs :
    runsTo ((((State.reset.setI 0x400#16).setV 0 1#8).setV 1 2#8).setV 2 3#8) 0xF255#16
      (fun t => t.mem.read 0x400 == 1#8 && t.mem.read 0x401 == 2#8 && t.mem.read 0x402 == 3#8 &&
        t.mem.read 0x403 == 0#8 && t.i == 0x400#16) = true := by decide
/-- IM20. -/
theorem test_storeRegs_out_of_range :
    runsTo ((State.reset.setI 0xFF1#16).setV 0 0x10#8) 0xFF55#16
      (fun t => faulted t .memRange 0x200#16 && t.mem.read 0xFF1 == 0#8) = true := by decide
/-- IM22: only V0 is loaded. -/
theorem test_loadRegs :
    runsTo (poke ((State.reset.setI 0x60F#16).setV 15 1#8) 0x60F 0xAF#8) 0xF065#16
      (fun t => t.getV 0 == 0xAF#8 && t.getV 1 == 0#8 && t.getV 15 == 1#8 && t.i == 0x60F#16) = true := by decide
/-- IM24. -/
theorem test_loadRegs_out_of_range :
    runsTo (State.reset.setI 0x1000#16) 0xF065#16
      (fun t => faulted t .memRange 0x200#16 && t.getV 0 == 0#8) = true := by decide

/-! ### The display -/

/-- DP1. -/
theorem test_cls :
    runsTo (light (light State.reset 0 0) 31 63) 0x00E0#16
      (fun t => !t.disp.cell 0 0 && !t.disp.cell 31 63 && t.pc == 0x202#16) = true := by decide
/-- DP3: the coordinates are read before VF is written. -/
theorem test_drw_reads_old_vf :
    runsTo (poke ((State.reset.setI 0x300#16).setV 15 5#8) 0x300 0x80#8) 0xDFF1#16
      (fun t => t.disp.cell 5 5 && lit t 5 == 1 && lit t 0 == 0 && t.getV 15 == 0#8) = true := by decide
/-- The corner of P4: both edges wrap at once, and the cell that was on collides. -/
theorem test_drw_wraps_and_collides :
    runsTo (light (poke (poke (((State.reset.setI 0x210#16).setV 0 0x3E#8).setV 1 0x1F#8) 0x210 0xC3#8) 0x211 0x81#8)
        0 5) 0xD012#16
      (fun t => t.disp.cell 31 62 && t.disp.cell 31 63 && t.disp.cell 31 4 && t.disp.cell 31 5 && lit t 31 == 4 &&
        t.disp.cell 0 62 && !t.disp.cell 0 5 && lit t 0 == 1 && t.getV 15 == 1#8) = true := by decide

/-! ### Keypad and timers -/

/-- KT1 and KT3: key 3 is tested. -/
theorem test_skp :
    runsTo (press (State.reset.setV 2 3#8) 3) 0xE29E#16 (fun t => t.pc == 0x204#16) = true ∧
    runsTo (press (press (State.reset.setV 2 3#8) 2) 4) 0xE29E#16 (fun t => t.pc == 0x202#16) = true := by decide
/-- KT6: no masking to key 0. -/
theorem test_skp_out_of_range :
    runsTo (press (State.reset.setV 2 0x10#8) 0) 0xE29E#16
      (fun t => faulted t .keyRange 0x200#16 && t.pc == 0x202#16) = true := by decide
/-- KT4 and KT5. -/
theorem test_sknp :
    runsTo (State.reset.setV 2 3#8) 0xE2A1#16 (fun t => t.pc == 0x204#16) = true ∧
    runsTo (press (State.reset.setV 2 3#8) 3) 0xE2A1#16 (fun t => t.pc == 0x202#16) = true := by decide
/-- KT7. -/
theorem test_sknp_out_of_range :
    runsTo (State.reset.setV 2 0xFF#8) 0xE2A1#16
      (fun t => faulted t .keyRange 0x200#16 && t.pc == 0x202#16) = true := by decide
/-- KT11. -/
theorem test_ldVxDt :
    runsTo (State.reset.setDt 0x3C#8) 0xF507#16 (fun t => t.getV 5 == 0x3C#8 && t.dt == 0x3C#8) = true := by decide
/-- KT8: the wait. -/
theorem test_ldVxK_waits :
    runsTo ((startAt 0x210#16).setV 3 9#8) 0xF30A#16 (fun t => t.pc == 0x210#16 && t.getV 3 == 9#8) = true := by
  decide
/-- KT9: the lowest key wins. -/
theorem test_ldVxK :
    runsTo (press (press (startAt 0x210#16) 7) 3) 0xF30A#16
      (fun t => t.getV 3 == 3#8 && t.pc == 0x212#16) = true := by decide
/-- KT12. -/
theorem test_ldDtVx :
    runsTo (State.reset.setV 4 0x3C#8) 0xF415#16 (fun t => t.dt == 0x3C#8 && t.st == 0#8) = true := by decide
/-- KT13. -/
theorem test_ldStVx :
    runsTo (State.reset.setV 4 0x10#8) 0xF418#16 (fun t => t.st == 0x10#8 && t.dt == 0#8) = true := by decide
/-- KT14 and KT15. -/
theorem test_tick :
    ((State.reset.setDt 1#8).setSt 3#8).tick.dt = 0#8 ∧ ((State.reset.setDt 1#8).setSt 3#8).tick.st = 2#8 ∧
    State.reset.tick.dt = 0#8 ∧ State.reset.tick.st = 0#8 := by decide

/-! ### The host interface of the row -/

/-- The next step runs the word placed by withFetchWord: W5's first instruction. -/
theorem test_withFetchWord :
    (match step (State.reset.withFetchWord 16 0x600A) with
      | .next t => t.getV 0
      | .fault _ => 0#8
      | .refused _ => 0#8) = 0x0A#8 := by decide

/-- P1, the first cycle: a program comes to run by Load. -/
theorem test_loaded_program_runs :
    (match runEnv [.init, .load [0x60#8, 0x0A#8, 0x70#8, 0x05#8, 0x12#8, 0x02#8], .cycle] .off with
      | .next (.running t) => t.getV 0 == 0x0A#8 && t.pc == 0x202#16
      | .next _ => false
      | .fault _ => false
      | .refused _ => false) = true := by decide

/-! ### Witnesses: the hypotheses of each statement are met -/

/-- DecodeInvertsEncode, at the ends of the fields. -/
theorem witness_DecodeInvertsEncode :
    (Instr.sys 0xFFF#12).wf = true ∧ (Instr.drw 15 0 15).wf = true ∧ (Instr.loadRegs 15).wf = true := by decide

/-- EncodeInvertsDecode. -/
theorem witness_EncodeInvertsDecode :
    decodeWord 0x8F0E#16 = some (.shl 15 0) ∧ decodeWord 0xFF65#16 = some (.loadRegs 15) := by decide

/-- StepRunsTheDecodedInstruction, at the last address that can be fetched. -/
theorem witness_StepRunsTheDecodedInstruction :
    ((startAt 4094#16).placeWord 0x6A5C#16).CanFetch ∧
    (0x6A5C#16 : Word).toNat = (((startAt 4094#16).placeWord 0x6A5C#16).mem.read 4094).toNat * 256 +
      (((startAt 4094#16).placeWord 0x6A5C#16).mem.read 4095).toNat ∧
    decodeWord 0x6A5C#16 = some (.ldImm 10 0x5C#8) := by
  unfold State.CanFetch
  decide

/-- UnknownOpcodeIsReportedAndSkipped. -/
theorem witness_UnknownOpcodeIsReportedAndSkipped :
    (State.reset.placeWord 0x5001#16).CanFetch ∧
    (0x5001#16 : Word).toNat = ((State.reset.placeWord 0x5001#16).mem.read 0x200).toNat * 256 +
      ((State.reset.placeWord 0x5001#16).mem.read 0x201).toNat ∧
    decodeWord 0x5001#16 = none := by
  unfold State.CanFetch
  decide

/-- PcOverrunIsFatal, at the first such pc. -/
theorem witness_PcOverrunIsFatal : (startAt 4095#16).halted = false ∧ (startAt 4095#16).pc.toNat > 4094 := by decide

/-- HaltedCoreTakesNoStep. -/
theorem witness_HaltedCoreTakesNoStep : (State.reset.raiseFatal .keyRange 0x200#16).halted = true := by decide

/-- EveryCycleCompletes. -/
theorem witness_EveryCycleCompletes : (startAt 0xFFFF#16).halted = false := by decide

/-- FaultsArePrecise, below and above the fetch limit. -/
theorem witness_FaultsArePrecise :
    (∃ s t, s.halted = false ∧ step s = .next t ∧ t.halted = true ∧ s.pc.toNat ≤ 4094) ∧
    (∃ s t, s.halted = false ∧ step s = .next t ∧ t.halted = true ∧ s.pc.toNat > 4094) := by
  have h1 := exists_of_runsTo (s := startAt 4094#16) (op := 0x00EE#16) (p := fun t => t.halted) (by decide)
  have h2 := exists_of_runsTo (s := startAt 4095#16) (op := 0x00EE#16) (p := fun t => t.halted) (by decide)
  obtain ⟨t, ht, hh⟩ := h1
  obtain ⟨u, hu, hk⟩ := h2
  exact ⟨⟨_, t, by decide, ht, hh, by decide⟩, ⟨_, u, by decide, hu, hk, by decide⟩⟩

/-- FaultsHaveTheListedCauses: each cause is met, at its boundary, by a core that was not halted. -/
theorem witness_FaultsHaveTheListedCauses :
    (nested State.reset 16).halted = false ∧
    execsTo (.call 0x300#12) (nested State.reset 16) (fun t => t.halted && t.faultCode == some .stackOverflow) = true ∧
    execsTo .ret State.reset (fun t => t.halted && t.faultCode == some .stackUnderflow) = true ∧
    execsTo (.drw 0 0 2) (State.reset.setI 0xFFF#16) (fun t => t.halted && t.faultCode == some .memRange) = true ∧
    execsTo (.ldB 0) (State.reset.setI 0xFFE#16) (fun t => t.halted && t.faultCode == some .memRange) = true ∧
    execsTo (.storeRegs 1) (State.reset.setI 0xFFF#16) (fun t => t.halted && t.faultCode == some .memRange) = true ∧
    execsTo (.loadRegs 0) (State.reset.setI 0x1000#16) (fun t => t.halted && t.faultCode == some .memRange) = true ∧
    execsTo (.skp 1) (State.reset.setV 1 16#8) (fun t => t.halted && t.faultCode == some .keyRange) = true ∧
    execsTo (.sknp 1) (State.reset.setV 1 16#8) (fun t => t.halted && t.faultCode == some .keyRange) = true := by
  decide

/-- FaultsHaveTheListedCauses: the instructions that may fault do not, one step inside each boundary. -/
theorem witness_FaultsHaveTheListedCauses_inside :
    execsTo (.call 0x300#12) (nested State.reset 15) (fun t => !t.halted) = true ∧
    execsTo .ret (nested State.reset 1) (fun t => !t.halted) = true ∧
    execsTo (.drw 0 0 1) (State.reset.setI 0xFFF#16) (fun t => !t.halted) = true ∧
    execsTo (.drw 0 0 0) (State.reset.setI 0xFFFF#16) (fun t => !t.halted) = true ∧
    execsTo (.ldB 0) (State.reset.setI 0xFFD#16) (fun t => !t.halted) = true ∧
    execsTo (.storeRegs 0) (State.reset.setI 0xFFF#16) (fun t => !t.halted) = true ∧
    execsTo (.loadRegs 0) (State.reset.setI 0xFFF#16) (fun t => !t.halted) = true ∧
    execsTo (.skp 1) (State.reset.setV 1 15#8) (fun t => !t.halted) = true ∧
    execsTo (.sknp 1) (State.reset.setV 1 15#8) (fun t => !t.halted) = true := by
  decide

/-- A state at the bounds of the invariant: pc = 0x10FE, a stacked 0x1000, a byte listed at 0x200. -/
def atTheBounds : State :=
  { startAt 0x10FE#16 with stack := Vector.replicate 16 0x1000#16, sp := 16, mem := [(0x200, 0x60#8)] }

theorem atTheBounds_inv : atTheBounds.Inv where
  memory := by decide
  pcBound := by decide
  stackBound := by decide
  status := rfl
  noFault := fun _ => rfl

/-- StepKeepsTheInvariant: the step from the bounds takes PC_OVERRUN. -/
theorem witness_StepKeepsTheInvariant : ∃ t, atTheBounds.Inv ∧ step atTheBounds = .next t :=
  ⟨atTheBounds.raiseFatal .pcOverrun 0x10FE#16, atTheBounds_inv, rfl⟩

/-- EveryRunKeepsTheInvariant. -/
theorem witness_EveryRunKeepsTheInvariant :
    ∃ c s, runEnv [.init, .setKeys (Vector.replicate 16 true), .tick, .readState] .off = .next c ∧ c.state = some s :=
  ⟨_, _, rfl, rfl⟩

/-- LoadCopiesTheImage: the longest image, a byte of it, and one byte more. -/
theorem witness_LoadCopiesTheImage :
    (List.replicate 3584 0xAA#8).length ≤ 3584 ∧ 3583 < (List.replicate 3584 0xAA#8).length ∧
    (List.replicate 3585 0xAA#8).length > 3584 := by
  rw [List.length_replicate, List.length_replicate]
  omega

/-- LifecycleIsInOrder: a run with operations around its Load goes through. -/
theorem witness_LifecycleIsInOrder :
    ∃ c before image after,
      runEnv (.init :: (before ++ .load image :: after)) .off = .next c ∧
      before = [.tick] ∧ image = [0x12#8] ∧ after = [.setKeys (Vector.replicate 16 false), .cycle] :=
  ⟨.running ((((State.reset.tick.mem.writeBytes 0x200 [0x12#8] |> fun m => { State.reset.tick with mem := m }).setKeys
    (Vector.replicate 16 false))).setPc 0x200#16), [.tick], [0x12#8],
    [.setKeys (Vector.replicate 16 false), .cycle], rfl, rfl, rfl, rfl⟩

/-- MemoryPrimitives, on both sides of the end of memory. -/
theorem witness_MemoryPrimitives : 0x1000 > 0xFFF ∧ 0xFFF ≤ 0xFFF := by decide

/-- BlocksAreCheckedWhole: a block that ends at 0xFFF, one that ends beyond, and an empty one. -/
theorem witness_BlocksAreCheckedWhole :
    ((State.reset.setI 0xFFF#16).i.toNat + (1 - 1) ≤ 0xFFF) ∧ ((State.reset.setI 0xFFF#16).i.toNat + (2 - 1) > 0xFFF) ∧
    ([0xAA#8, 0xBB#8].length > 0) ∧ ([] : List Byte).length = 0 := by decide

/-- PartsDetermineTheState. -/
theorem witness_PartsDetermineTheState :
    atTheBounds.mem.wf ∧ ChangesOnly atTheBounds atTheBounds (fun _ => False) :=
  ⟨atTheBounds_inv.memory, fun p _ => by cases p <;> rfl⟩

/-- SysIsIgnored: the nearest neighbours of the two excluded words. -/
theorem witness_SysIsIgnored : (0x0E1#12 : Addr) ≠ 0x0E0#12 ∧ (0x0EF#12 : Addr) ≠ 0x0EE#12 := by decide

/-- CallPushesOrOverflows: the last free slot, and the full stack. -/
theorem witness_CallPushesOrOverflows :
    (nested (startAt 0x402#16) 15).pc = 0x400#16 + 2#16 ∧ (nested (startAt 0x402#16) 15).sp.val < 16 ∧
    (nested (startAt 0x402#16) 16).pc = 0x400#16 + 2#16 ∧ (nested (startAt 0x402#16) 16).sp.val = 16 := by decide

/-- RetPopsOrUnderflows: one entry, and the empty stack. -/
theorem witness_RetPopsOrUnderflows :
    (nested (startAt 0x402#16) 1).pc = 0x400#16 + 2#16 ∧ 0 < (nested (startAt 0x402#16) 1).sp.val ∧
    (startAt 0x402#16).pc = 0x400#16 + 2#16 ∧ (startAt 0x402#16).sp.val = 0 := by decide

/-- RetUndoesCall. -/
theorem witness_RetUndoesCall :
    (nested State.reset 15).sp.val < 16 ∧ ∃ t, exec (.call 0x300#12) (nested State.reset 15) = .next t :=
  ⟨by decide, _, rfl⟩

/-- AddImmediateClosure (W1). -/
theorem witness_AddImmediateClosure :
    (0xE0#8 : Byte).toNat = (256 - (0x20#8 : Byte).toNat) % 256 ∧
    (0x00#8 : Byte).toNat = (256 - (0x00#8 : Byte).toNat) % 256 := by decide

/-- SkipsCompareAndAdvance: the least nibble of an unknown register skip. -/
theorem witness_SkipsCompareAndAdvance : (1 : Fin 16) ≠ 0 := by decide

/-- AddSetsCarry, SubtractionsSetStrictNotBorrow and ShiftsSetTheBitShiftedOut: the greatest x that is not VF. -/
theorem witness_flagResults : (14 : Reg) ≠ VF := by decide

/-- RndMasksADraw: the lowest bit outside a mask, and the highest. -/
theorem witness_RndMasksADraw : (0xFE#8 : Byte).getLsbD 0 = false ∧ (0x7F#8 : Byte).getLsbD 7 = false := by decide

/-- BcdStoresTheDigits: the last block in range, and the first out of it. -/
theorem witness_BcdStoresTheDigits :
    ((startAt 0x202#16).setI 0xFFD#16).pc = 0x200#16 + 2#16 ∧ ((startAt 0x202#16).setI 0xFFD#16).i.toNat + 2 ≤ 0xFFF ∧
    ((startAt 0x202#16).setI 0xFFE#16).pc = 0x200#16 + 2#16 ∧
    ((startAt 0x202#16).setI 0xFFE#16).i.toNat + 2 > 0xFFF := by decide

/-- StoreRegistersFillsTheBlock and LoadRegistersReadsTheBlock: all sixteen, in range and one beyond. -/
theorem witness_StoreAndLoadRegisters :
    ((startAt 0x202#16).setI 0xFF0#16).pc = 0x200#16 + 2#16 ∧
    ((startAt 0x202#16).setI 0xFF0#16).i.toNat + (15 : Reg).val ≤ 0xFFF ∧ (15 : Reg) ≤ 15 ∧
    ((startAt 0x202#16).setI 0xFF1#16).pc = 0x200#16 + 2#16 ∧
    ((startAt 0x202#16).setI 0xFF1#16).i.toNat + (15 : Reg).val > 0xFFF := by decide

/-- The registers and I of the next two witnesses. -/
def twoRegisters : State := ((startAt 0xFFE#16).setI 0xFFE#16).setV 0 0x13#8 |>.setV 1 0x57#8

/-- LoadBringsBackWhatStorePut: the block ends at 0xFFF, and V0 is overwritten in between. -/
theorem witness_LoadBringsBackWhatStorePut :
    twoRegisters.i.toNat + (1 : Reg).val ≤ 0xFFF ∧
    ∃ t u w, exec (.storeRegs 1) twoRegisters = .next t ∧ u = t.setV 0 0xEE#8 ∧ u.i = t.i ∧ u.mem = t.mem ∧
      exec (.loadRegs 1) u = .next w ∧ (0 : Reg) ≤ 1 :=
  ⟨by decide, _, _, _, rfl, rfl, rfl, rfl, rfl, by decide⟩

/-- StoredCodeIsFetchedNext, at the last pc that can be fetched. -/
theorem witness_StoredCodeIsFetchedNext :
    1 ≤ (1 : Reg).val ∧ twoRegisters.i = twoRegisters.pc ∧ twoRegisters.i.toNat + (1 : Reg).val ≤ 0xFFF ∧
    ∃ t, exec (.storeRegs 1) twoRegisters = .next t :=
  ⟨by decide, by decide, by decide, _, rfl⟩

/-- A state with the one-pixel sprite of W4 at 0x300, where DRW V0, V1 draws at cell (0, 0). -/
def onePixel : State := poke ((startAt 0x202#16).setI 0x300#16) 0x300 0x80#8

theorem onePixel_covers : SpriteCovers onePixel 0 1 1 0 0 :=
  ⟨0, by decide, 0, by decide, by decide, by decide, by decide⟩

theorem onePixel_covers_lit : SpriteCovers (light onePixel 0 0) 0 1 1 0 0 :=
  ⟨0, by decide, 0, by decide, by decide, by decide, by decide⟩

/-- DrwTogglesTheCoveredCells: no row with I beyond memory, the last row in range, and one row beyond it. -/
theorem witness_DrwTogglesTheCoveredCells_range :
    ((startAt 0x202#16).setI 0xFFFF#16).pc = 0x200#16 + 2#16 ∧ (0 : Fin 16).val = 0 ∧
    ((startAt 0x202#16).setI 0xFFF#16).i.toNat + ((1 : Fin 16).val - 1) ≤ 0xFFF ∧
    (2 : Fin 16).val > 0 ∧ ((startAt 0x202#16).setI 0xFFF#16).i.toNat + ((2 : Fin 16).val - 1) > 0xFFF := by decide

/-- DrwTogglesTheCoveredCells: a covered cell that is on (DP7), so VF becomes 1. -/
theorem witness_DrwTogglesTheCoveredCells_collision :
    ∃ r c, SpriteCovers (light onePixel 0 0) 0 1 1 r c ∧ (light onePixel 0 0).disp.cell r c = true :=
  ⟨0, 0, onePixel_covers_lit, by decide⟩

/-- DrwTogglesTheCoveredCells: covered cells, none of them on, so VF becomes 0. -/
theorem witness_DrwTogglesTheCoveredCells_clear :
    SpriteCovers onePixel 0 1 1 0 0 ∧ ¬ ∃ r c, SpriteCovers onePixel 0 1 1 r c ∧ onePixel.disp.cell r c = true := by
  refine ⟨onePixel_covers, ?_⟩
  rintro ⟨r, c, -, h⟩
  have hz : ∀ (r : Fin 32) (c : Fin 64), onePixel.disp.cell r c = false := by
    intro r c
    change (Vector.replicate 32 0#64)[r].getLsbD c.val = false
    simp
  rw [hz r c] at h
  cases h

/-- SecondDrawRestoresTheDisplay (W4). -/
theorem witness_SecondDrawRestoresTheDisplay :
    ∃ t s' u, ((1 : Fin 16).val = 0 ∨ onePixel.i.toNat + ((1 : Fin 16).val - 1) ≤ 0xFFF) ∧
      exec (.drw 0 1 1) onePixel = .next t ∧ s' = { onePixel with disp := t.disp } ∧ s'.i = onePixel.i ∧
      (∀ row < (1 : Fin 16).val, s'.mem.read (onePixel.i.toNat + row) = onePixel.mem.read (onePixel.i.toNat + row)) ∧
      (s'.getV 0).toNat % 64 = (onePixel.getV 0).toNat % 64 ∧ (s'.getV 1).toNat % 32 = (onePixel.getV 1).toNat % 32 ∧
      s'.disp = t.disp ∧ exec (.drw 0 1 1) s' = .next u :=
  ⟨_, _, _, .inr (by decide), rfl, rfl, rfl, fun _ _ => rfl, rfl, rfl, rfl, rfl⟩

/-- KeySkipsTestTheKeyNumbered: the last key, and the first number beyond. -/
theorem witness_KeySkipsTestTheKeyNumbered :
    ((startAt 0x202#16).setV 2 15#8).pc = 0x200#16 + 2#16 ∧ (((startAt 0x202#16).setV 2 15#8).getV 2).toNat < 16 ∧
    ((startAt 0x202#16).setV 2 16#8).pc = 0x200#16 + 2#16 ∧ (((startAt 0x202#16).setV 2 16#8).getV 2).toNat ≥ 16 := by
  decide

/-- KeyWaitTakesTheLeastKeyOrRepeats: no key, the least of two, and key 15 alone. -/
theorem witness_KeyWaitTakesTheLeastKeyOrRepeats :
    (startAt 0x212#16).pc = 0x210#16 + 2#16 ∧ (∀ j : Key, (startAt 0x212#16).key[j] = false) ∧
    (press (press (startAt 0x212#16) 7) 3).pc = 0x210#16 + 2#16 ∧
    (press (press (startAt 0x212#16) 7) 3).key[(3 : Key)] = true ∧
    (∀ j : Key, j < 3 → (press (press (startAt 0x212#16) 7) 3).key[j] = false) ∧
    (press (startAt 0x212#16) 15).key[(15 : Key)] = true ∧
    (∀ j : Key, j < 15 → (press (startAt 0x212#16) 15).key[j] = false) := by decide

/-- KeyWaitSpinsUntilAKey, at the last address that can be fetched. -/
theorem witness_KeyWaitSpinsUntilAKey :
    ((startAt 4094#16).placeWord 0xF30A#16).CanFetch ∧
    decodeWord ((startAt 4094#16).placeWord 0xF30A#16).fetchWord = some (.ldVxK 3) ∧
    ∀ j : Key, ((startAt 4094#16).placeWord 0xF30A#16).key[j] = false := by
  unfold State.CanFetch
  decide

/-- OnlyTheNamedInstructionsReachTheDevices: one instruction meets all three premises, and one of each kind the two
that are not its own. -/
theorem witness_OnlyTheNamedInstructionsReachTheDevices :
    (∃ t, exec (.ldImm 1 7#8) State.reset = .next t) ∧ (∃ t, exec (.skp 1) State.reset = .next t) ∧
    (∃ t, exec (.call 0x300#12) State.reset = .next t) ∧
    (∀ x, Instr.ldImm 1 7#8 ≠ .skp x ∧ Instr.ldImm 1 7#8 ≠ .sknp x ∧ Instr.ldImm 1 7#8 ≠ .ldVxK x) ∧
    (Instr.skp 1 ≠ .ret ∧ ∀ nnn, Instr.skp 1 ≠ .call nnn) ∧
    (Instr.call 0x300#12 ≠ .cls ∧ ∀ x y n, Instr.call 0x300#12 ≠ .drw x y n) := by
  refine ⟨⟨_, rfl⟩, ⟨_, rfl⟩, ⟨_, rfl⟩, ?_, ?_, ?_⟩ <;> simp

/-- OnlyTheNamedInstructionsWrite: each premise is met by an instruction that changes that part. -/
theorem witness_OnlyTheNamedInstructionsWrite :
    execsTo (.call 0x300#12) State.reset (fun t => t.stack != State.reset.stack && t.sp != State.reset.sp) = true ∧
    execsTo .ret (nested State.reset 1) (fun t => t.sp != 1) = true ∧
    execsTo (.ldB 0) ((State.reset.setI 0x300#16).setV 0 7#8) (fun t => t.mem.read 0x302 != 0#8) = true ∧
    execsTo (.storeRegs 0) ((State.reset.setI 0x300#16).setV 0 7#8) (fun t => t.mem.read 0x300 != 0#8) = true ∧
    execsTo .cls (light State.reset 0 0) (fun t => t.disp != (light State.reset 0 0).disp) = true ∧
    execsTo (.drw 0 1 1) onePixel (fun t => t.disp != onePixel.disp) = true ∧
    execsTo (.ldI 1#12) State.reset (fun t => t.i != 0#16) = true ∧
    execsTo (.addI 1) (State.reset.setV 1 1#8) (fun t => t.i != 0#16) = true ∧
    execsTo (.ldF 0) State.reset (fun t => t.i != 0#16) = true ∧
    execsTo (.ldDtVx 1) (State.reset.setV 1 1#8) (fun t => t.dt != 0#8) = true ∧
    execsTo (.ldStVx 1) (State.reset.setV 1 1#8) (fun t => t.st != 0#8) = true ∧
    execsTo (.rnd 1 0#8) State.reset (fun t => t.draws != 0) = true := by decide

/-- OnlyTheNamedInstructionsWrite: V, at the last register a load reaches, by a result, by a flag, by a key; pc; and
the run status. -/
theorem witness_OnlyTheNamedInstructionsWrite_rest :
    execsTo (.loadRegs 3) (poke (State.reset.setI 0x300#16) 0x303 9#8) (fun t => t.getV 3 != 0#8) = true ∧
    execsTo (.shl 1 0) (State.reset.setV 1 0x81#8) (fun t => t.getV 1 != 0x81#8 && t.getV VF != 0#8) = true ∧
    execsTo (.ldVxK 2) (press State.reset 7) (fun t => t.getV 2 != 0#8) = true ∧
    execsTo (.jp 0x300#12) State.reset (fun t => t.pc != 0x200#16) = true ∧
    execsTo (.seReg 1 1) State.reset (fun t => t.pc != 0x200#16) = true ∧
    execsTo (.ldVxK 2) State.reset (fun t => t.pc != 0x200#16) = true ∧
    execsTo (.ldB 0) (State.reset.setI 0xFFE#16)
      (fun t => t.halted && t.faultCode != none && t.faultAddr != 0#16) = true := by decide

/-- VfHasTheListedWriters: VF changes by a flag, by a collision, and as an ordinary destination. -/
theorem witness_VfHasTheListedWriters :
    execsTo (.sub 1 2) (State.reset.setV 1 1#8) (fun t => t.getV VF != 0#8) = true ∧
    execsTo (.drw 0 1 1) (light onePixel 0 0) (fun t => t.getV VF != 0#8) = true ∧
    execsTo (.ldImm VF 7#8) State.reset (fun t => t.getV VF != 0#8) = true ∧
    execsTo (.orReg VF 1) (State.reset.setV 1 1#8) (fun t => t.getV VF != 0#8) = true ∧
    execsTo (.loadRegs VF) (poke (State.reset.setI 0x300#16) 0x30F 1#8) (fun t => t.getV VF != 0#8) = true := by
  decide

/-- SoundTimerIsNeverObserved and ReportStreamIsOnlyAnOutput: two cycles, the second of them an unknown opcode. -/
theorem witness_runs :
    (match Host.Core.run Sys2Proof.core 2 (poke (poke (State.reset.placeWord 0x6A5C#16) 0x202 0x50#8) 0x203 0x01#8) with
      | .next t => State.getV t 0xA == 0x5C#8 && State.reports t == [⟨0x5001#16, 0x202#16⟩]
      | .fault _ => false
      | .refused _ => false) = true := by decide

end Sys2Proof.Tests
end

section
/-! The state after Initialize (10_state.md R34). -/

namespace Sys2Proof.Machine

/-! ### The contents of memory after Initialize -/

/-- No font byte stands below 0x050 or from 0x0A0 up. -/
theorem Memory.initial_outside_font {a : Nat} (h : a < 0x050 ∨ 0x0A0 ≤ a) : Memory.initial a = 0#8 :=
  if_neg (show ¬ (0x050 ≤ a ∧ a < 0x050 + 80) by omega)

/-- The font table stands from 0x050 on. -/
theorem Memory.initial_font {j : Nat} (h : j < 80) : Memory.initial (0x050 + j) = Config.fontByte j := by
  have hin : 0x050 ≤ 0x050 + j ∧ 0x050 + j < 0x050 + 80 := by omega
  rw [Memory.initial, if_pos hin, Nat.add_sub_cancel_left]

/-! ### The cells of the reset state -/

@[simp] theorem State.reset_getV (x : Reg) : State.reset.getV x = 0#8 := Vector.getElem_replicate x.isLt

theorem State.reset_stack (j : Fin 16) : State.reset.stack[j] = 0#16 := Vector.getElem_replicate j.isLt

theorem State.reset_key (k : Key) : State.reset.key[k] = false := Vector.getElem_replicate k.isLt

@[simp] theorem State.reset_cell (r : Fin 32) (c : Fin 64) : State.reset.disp.cell r c = false :=
  Display.cell_clear r c

@[simp] theorem State.reset_read (a : Nat) : State.reset.mem.read a = Memory.initial a := Memory.read_nil a

/-- Memory holds zero outside the font table. -/
theorem State.reset_read_outside_font {a : Nat} (h : a < 0x050 ∨ 0x0A0 ≤ a) : State.reset.mem.read a = 0#8 :=
  (State.reset_read a).trans (Memory.initial_outside_font h)

/-- Memory holds the font table from 0x050 on. -/
theorem State.reset_read_font {j : Nat} (h : j < 80) : State.reset.mem.read (0x050 + j) = Config.fontByte j :=
  (State.reset_read _).trans (Memory.initial_font h)

/-- Memory holds at 0x050..0x054 the glyph the source attests (70_reset_and_hazards.md R151). -/
theorem State.reset_read_first_glyph :
    State.reset.mem.read 0x050 = 0xF0#8 ∧ State.reset.mem.read 0x051 = 0x90#8 ∧
    State.reset.mem.read 0x052 = 0x90#8 ∧ State.reset.mem.read 0x053 = 0x90#8 ∧
    State.reset.mem.read 0x054 = 0xF0#8 :=
  ⟨State.reset_read_font (j := 0) (by decide), State.reset_read_font (j := 1) (by decide),
    State.reset_read_font (j := 2) (by decide), State.reset_read_font (j := 3) (by decide),
    State.reset_read_font (j := 4) (by decide)⟩

/-- Settles O14: the registers, the display and memory by what each reads as after Initialize, the scalar
fields by the definition of reset. -/
theorem resetLeavesTheListedValues : Obligations.ResetLeavesTheListedValues := by
  unfold Obligations.ResetLeavesTheListedValues
  refine ⟨State.reset_getV, ?i, ?pc, ?sp, State.reset_stack, ?dt, ?st, State.reset_cell, State.reset_key,
    ?halted, ?faultCode, ?faultAddr, ?outsideFont, fun _ => State.reset_read_font, State.reset_read_first_glyph⟩
  case outsideFont =>
    intro a ha
    exact State.reset_read_outside_font (ha.imp_right And.left)
  all_goals rfl

end Sys2Proof.Machine
end

section
/-! The opcode map and the unknown opcodes (30_encoding.md R63 to R65). -/

namespace Sys2Proof

open Machine

/-! ### The decode fields as numbers (R55) -/

theorem fieldTop_eq (op : Word) : fieldTop op = op.toNat / 0x1000 := by
  simp only [fieldTop, BitVec.extractLsb'_toNat, Nat.shiftRight_eq_div_pow]
  omega

theorem fieldN_val (op : Word) : (fieldN op).val = op.toNat % 0x10 := by simp [fieldN]

theorem toNat_fieldKk (op : Word) : (fieldKk op).toNat = op.toNat % 0x100 := by simp [fieldKk]

theorem fieldTop_lt (op : Word) : fieldTop op < 16 := BitVec.isLt _

/-! ### A word is put together from its fields, in each format of R56 -/

theorem encNNN_fields {op : Word} {top : BitVec 4} (ht : fieldTop op = top.toNat) : encNNN top (fieldNnn op) = op := by
  rw [encNNN, fieldNnn, ← BitVec.eq_of_toNat_eq ht, BitVec.extractLsb'_append_extractLsb'_eq_extractLsb' (by rfl)]
  exact BitVec.extractLsb'_eq_self

theorem encXKK_fields {op : Word} {top : BitVec 4} {kk : Byte} (ht : fieldTop op = top.toNat)
    (hk : (fieldKk op).toNat = kk.toNat) : encXKK top (fieldX op) kk = op := by
  have hx : nibble (fieldX op) ++ kk = fieldNnn op := by
    rw [← BitVec.eq_of_toNat_eq hk, fieldX, nibble_toFin, fieldKk,
      BitVec.extractLsb'_append_extractLsb'_eq_extractLsb' (by rfl), fieldNnn]
  exact (congrArg (encNNN top) hx).trans (encNNN_fields ht)

theorem encXYN_fields {op : Word} {top n : BitVec 4} (ht : fieldTop op = top.toNat)
    (hn : (fieldN op).val = n.toNat) : encXYN top (fieldX op) (fieldY op) n = op := by
  have hn' : op.extractLsb' 0 4 = n := BitVec.eq_of_toNat_eq hn
  have hy : nibble (fieldY op) ++ n = fieldKk op := by
    rw [← hn', fieldY, nibble_toFin, BitVec.extractLsb'_append_extractLsb'_eq_extractLsb' (by rfl), fieldKk]
  exact (congrArg (encXKK top (fieldX op)) hy).trans (encXKK_fields ht rfl)

/-! ### What decodes is well-formed and is encoded as the word it came from -/

theorem encode_of_decodeGroup0 {op : Word} {i : Instr} (ht : fieldTop op = 0x0) (h : decodeGroup0 op = some i) :
    i.wf = true ∧ encode i = op := by
  have hs : encode (.sys (fieldNnn op)) = op := encNNN_fields ht
  unfold decodeGroup0 at h
  split at h
  case isTrue hc => cases h; exact ⟨rfl, hc.symm⟩
  split at h
  case isTrue hr => cases h; exact ⟨rfl, hr.symm⟩
  case isFalse hc hr =>
    cases h
    have h1 : fieldNnn op ≠ 0x0E0#12 := fun e => hc (by rw [← hs, e]; rfl)
    have h2 : fieldNnn op ≠ 0x0EE#12 := fun e => hr (by rw [← hs, e]; rfl)
    exact ⟨by simp [Instr.wf, h1, h2], hs⟩

theorem encode_of_decodeGroup8 {op : Word} {i : Instr} (ht : fieldTop op = 0x8) (h : decodeGroup8 op = some i) :
    i.wf = true ∧ encode i = op := by
  unfold decodeGroup8 at h
  split at h <;> cases h
  all_goals next hn => exact ⟨rfl, encXYN_fields ht hn⟩

theorem encode_of_decodeGroupE {op : Word} {i : Instr} (ht : fieldTop op = 0xE) (h : decodeGroupE op = some i) :
    i.wf = true ∧ encode i = op := by
  unfold decodeGroupE at h
  split at h <;> cases h
  all_goals next hk => exact ⟨rfl, encXKK_fields ht hk⟩

theorem encode_of_decodeGroupF {op : Word} {i : Instr} (ht : fieldTop op = 0xF) (h : decodeGroupF op = some i) :
    i.wf = true ∧ encode i = op := by
  unfold decodeGroupF at h
  split at h <;> cases h
  all_goals next hk => exact ⟨rfl, encXKK_fields ht hk⟩

/-! ### The decode tree at a known top nibble (R57) -/

theorem decodeWord_group0 {op : Word} (ht : fieldTop op = 0x0) : decodeWord op = decodeGroup0 op := by
  rw [decodeWord, ht]; rfl

theorem decodeWord_group8 {op : Word} (ht : fieldTop op = 0x8) : decodeWord op = decodeGroup8 op := by
  rw [decodeWord, ht]; rfl

theorem decodeWord_groupE {op : Word} (ht : fieldTop op = 0xE) : decodeWord op = decodeGroupE op := by
  rw [decodeWord, ht]; rfl

theorem decodeWord_groupF {op : Word} (ht : fieldTop op = 0xF) : decodeWord op = decodeGroupF op := by
  rw [decodeWord, ht]; rfl

/-- What decodes is well-formed and is encoded as the word it came from. -/
theorem encode_of_decodeWord {op : Word} {i : Instr} (h : decodeWord op = some i) : i.wf = true ∧ encode i = op := by
  have hlt := fieldTop_lt op
  unfold decodeWord at h
  split at h
  case h_1 ht => exact encode_of_decodeGroup0 ht h
  case h_6 ht | h_10 ht =>
    split at h <;> cases h
    case isTrue hn => exact ⟨rfl, encXYN_fields ht hn⟩
  case h_9 ht => exact encode_of_decodeGroup8 ht h
  case h_14 ht => cases h; exact ⟨rfl, encXYN_fields ht rfl⟩
  case h_15 ht => exact encode_of_decodeGroupE ht h
  case h_16 =>
    have ht : fieldTop op = 0xF := by grind
    exact encode_of_decodeGroupF ht h
  case h_2 ht | h_3 ht | h_11 ht | h_12 ht => cases h; exact ⟨rfl, encNNN_fields ht⟩
  all_goals next ht => cases h; exact ⟨rfl, encXKK_fields ht rfl⟩

/-! ### The row of what decodes, and what a matching row decodes to (R63, R64) -/

/-- Each instruction's row is in the map. -/
theorem row_mem_opcodeMap (i : Instr) : i.row ∈ opcodeMap := by
  cases i <;> rw [Instr.row] <;> decide

open Laws in
/-- `MatchesRow`, for every instruction. -/
theorem row_matches_encode : ∀ i : Instr, i.wf = true → i.row.matches (encode i) = true
  | .cls => MatchesRow.cls
  | .ret => MatchesRow.ret
  | .sys _ => MatchesRow.sys _
  | .jp _ => MatchesRow.jp _
  | .call _ => MatchesRow.call _
  | .seImm _ _ => MatchesRow.seImm _ _
  | .sneImm _ _ => MatchesRow.sneImm _ _
  | .seReg _ _ => MatchesRow.seReg _ _
  | .ldImm _ _ => MatchesRow.ldImm _ _
  | .addImm _ _ => MatchesRow.addImm _ _
  | .ldReg _ _ => MatchesRow.ldReg _ _
  | .orReg _ _ => MatchesRow.orReg _ _
  | .andReg _ _ => MatchesRow.andReg _ _
  | .xorReg _ _ => MatchesRow.xorReg _ _
  | .addReg _ _ => MatchesRow.addReg _ _
  | .sub _ _ => MatchesRow.sub _ _
  | .shr _ _ => MatchesRow.shr _ _
  | .subn _ _ => MatchesRow.subn _ _
  | .shl _ _ => MatchesRow.shl _ _
  | .sneReg _ _ => MatchesRow.sneReg _ _
  | .ldI _ => MatchesRow.ldI _
  | .jpV0 _ => MatchesRow.jpV0 _
  | .rnd _ _ => MatchesRow.rnd _ _
  | .drw _ _ _ => MatchesRow.drw _ _ _
  | .skp _ => MatchesRow.skp _
  | .sknp _ => MatchesRow.sknp _
  | .ldVxDt _ => MatchesRow.ldVxDt _
  | .ldVxK _ => MatchesRow.ldVxK _
  | .ldDtVx _ => MatchesRow.ldDtVx _
  | .ldStVx _ => MatchesRow.ldStVx _
  | .addI _ => MatchesRow.addI _
  | .ldF _ => MatchesRow.ldF _
  | .ldB _ => MatchesRow.ldB _
  | .storeRegs _ => MatchesRow.storeRegs _
  | .loadRegs _ => MatchesRow.loadRegs _

/-- An opcode matches the row of what it decodes to. -/
theorem row_matches_of_decodeWord {op : Word} {i : Instr} (h : decodeWord op = some i) : i.row.matches op = true := by
  obtain ⟨hwf, rfl⟩ := encode_of_decodeWord h
  exact row_matches_encode i hwf

theorem OpcodeRow.matches_iff (r : OpcodeRow) (op : Word) :
    r.matches op = true ↔ op &&& r.mask = r.pattern ∧ op ∉ r.excluded := by
  simp [OpcodeRow.matches]

/-- A field that the mask keeps whole is the pattern's. -/
theorem extractLsb'_of_masked {op m p : Word} {k w : Nat} (hm : m.extractLsb' k w = BitVec.allOnes w)
    (h : op &&& m = p) : op.extractLsb' k w = p.extractLsb' k w := by
  rw [← h, BitVec.extractLsb'_and, hm, BitVec.and_allOnes]

theorem fieldTop_of_masked {op m p : Word} (hm : m.extractLsb' 12 4 = 0xF#4) (h : op &&& m = p) :
    fieldTop op = fieldTop p := congrArg BitVec.toNat (extractLsb'_of_masked hm h)

theorem fieldN_of_masked {op m p : Word} (hm : m.extractLsb' 0 4 = 0xF#4) (h : op &&& m = p) :
    fieldN op = fieldN p := congrArg BitVec.toFin (extractLsb'_of_masked hm h)

theorem fieldKk_of_masked {op m p : Word} (hm : m.extractLsb' 0 8 = 0xFF#8) (h : op &&& m = p) :
    fieldKk op = fieldKk p := extractLsb'_of_masked hm h

/-- Every row of the map keeps the top nibble. -/
theorem extractLsb'_row_mask (i : Instr) : i.row.mask.extractLsb' 12 4 = 0xF#4 := by
  cases i <;> rw [Instr.row] <;> rfl

/-- An opcode that matches an instruction's row decodes to an instruction of that row. -/
theorem map_row_decodeWord {i : Instr} {op : Word} (h : i.row.matches op = true) :
    (decodeWord op).map Instr.row = some i.row := by
  obtain ⟨hm, hx⟩ := (OpcodeRow.matches_iff _ _).mp h
  have ht : fieldTop op = fieldTop i.row.pattern := fieldTop_of_masked (extractLsb'_row_mask i) hm
  cases i <;> simp only [Instr.row] at hm hx ht
  case cls | ret =>
    obtain rfl := (BitVec.and_allOnes (x := op)).symm.trans hm
    rfl
  case sys =>
    simp only [List.mem_cons, List.not_mem_nil, or_false, not_or] at hx
    rw [decodeWord_group0 ht, decodeGroup0, if_neg hx.1, if_neg hx.2]; rfl
  case seReg | sneReg =>
    have hn := fieldN_of_masked rfl hm
    rw [decodeWord, ht, hn]; rfl
  case ldReg | orReg | andReg | xorReg | addReg | sub | shr | subn | shl =>
    have hn := fieldN_of_masked rfl hm
    rw [decodeWord_group8 ht, decodeGroup8, hn]; rfl
  case skp | sknp =>
    have hk := fieldKk_of_masked rfl hm
    rw [decodeWord_groupE ht, decodeGroupE, hk]; rfl
  case ldVxDt | ldVxK | ldDtVx | ldStVx | addI | ldF | ldB | storeRegs | loadRegs =>
    have hk := fieldKk_of_masked rfl hm
    rw [decodeWord_groupF ht, decodeGroupF, hk]; rfl
  all_goals rw [decodeWord, ht]; rfl

/-- An opcode is UNKNOWN exactly when it matches no row. -/
theorem decodeWord_eq_none_iff_no_row (op : Word) :
    decodeWord op = none ↔ ∀ row ∈ opcodeMap, row.matches op = false := by
  constructor
  · intro h row hrow
    obtain ⟨i, -, rfl⟩ := List.mem_map.mp hrow
    by_contra hm
    have := map_row_decodeWord (Bool.of_not_eq_false hm)
    simp [h] at this
  · intro h
    by_contra hd
    obtain ⟨i, hi⟩ := Option.ne_none_iff_exists'.mp hd
    have := h _ (row_mem_opcodeMap i)
    simp [row_matches_of_decodeWord hi] at this

/-- Settles O4: the row of what an opcode decodes to is one that it matches, and any row it matches is the row of
what it decodes to. -/
theorem decodeFollowsOpcodeMap : Obligations.DecodeFollowsOpcodeMap := by
  unfold Obligations.DecodeFollowsOpcodeMap
  refine ⟨rfl, by decide, fun op => ?_⟩
  cases hd : decodeWord op with
  | none => exact .inl ⟨rfl, (decodeWord_eq_none_iff_no_row op).mp hd⟩
  | some i =>
    refine .inr ⟨i, rfl, row_mem_opcodeMap i, row_matches_of_decodeWord hd, fun row hrow hm => ?_⟩
    obtain ⟨j, -, rfl⟩ := List.mem_map.mp hrow
    have hj := map_row_decodeWord hm
    rw [hd] at hj
    exact (Option.some.inj hj).symm

/-! ### The unknown opcodes by group (R65) -/

theorem decodeGroup0_ne_none (op : Word) : decodeGroup0 op ≠ none := by
  unfold decodeGroup0
  split_ifs <;> simp

theorem decodeGroup8_eq_none (op : Word) :
    decodeGroup8 op = none ↔ (fieldN op).val ∈ [0x8, 0x9, 0xA, 0xB, 0xC, 0xD, 0xF] := by
  have hlt := (fieldN op).isLt
  unfold decodeGroup8
  split
  case h_10 =>
    simp only [List.mem_cons, List.not_mem_nil, or_false]
    grind
  all_goals next hn => simp [hn]

theorem decodeGroupE_eq_none (op : Word) : decodeGroupE op = none ↔ (fieldKk op).toNat ∉ [0x9E, 0xA1] := by
  unfold decodeGroupE
  split
  case h_3 =>
    simp only [List.mem_cons, List.not_mem_nil, or_false]
    grind
  all_goals next hk => simp [hk]

theorem decodeGroupF_eq_none (op : Word) :
    decodeGroupF op = none ↔ (fieldKk op).toNat ∉ [0x07, 0x0A, 0x15, 0x18, 0x1E, 0x29, 0x33, 0x55, 0x65] := by
  unfold decodeGroupF
  split
  case h_10 =>
    simp only [List.mem_cons, List.not_mem_nil, or_false]
    grind
  all_goals next hk => simp [hk]

/-- The unknown opcodes, by group. -/
theorem decodeWord_eq_none_iff (op : Word) :
    decodeWord op = none ↔
      (op.toNat / 0x1000 = 0x5 ∧ op.toNat % 0x10 ≠ 0) ∨
      (op.toNat / 0x1000 = 0x9 ∧ op.toNat % 0x10 ≠ 0) ∨
      (op.toNat / 0x1000 = 0x8 ∧ op.toNat % 0x10 ∈ [0x8, 0x9, 0xA, 0xB, 0xC, 0xD, 0xF]) ∨
      (op.toNat / 0x1000 = 0xE ∧ op.toNat % 0x100 ∉ [0x9E, 0xA1]) ∨
      (op.toNat / 0x1000 = 0xF ∧ op.toNat % 0x100 ∉ [0x07, 0x0A, 0x15, 0x18, 0x1E, 0x29, 0x33, 0x55, 0x65]) := by
  have hlt := fieldTop_lt op
  rw [← fieldTop_eq, ← fieldN_val, ← toNat_fieldKk, ← decodeGroup8_eq_none, ← decodeGroupE_eq_none,
    ← decodeGroupF_eq_none]
  unfold decodeWord
  split
  case h_1 ht => simp [ht, decodeGroup0_ne_none]
  case h_16 =>
    have ht : fieldTop op = 0xF := by grind
    simp [ht]
  all_goals next ht => simp [ht]

/-! ### Counting the unknown opcodes -/

/-- Two stretches that meet are counted together. -/
theorem unknownCount_append (lo a b : Nat) {m n : Nat} (ha : unknownCount lo a = m) (hb : unknownCount (lo + a) b = n) :
    unknownCount lo (a + b) = m + n := by
  rw [unknownCount, ← List.range'_append_1, List.countP_append]
  exact congrArg₂ (· + ·) ha hb

/-- The count of a stretch on which being unknown is a property p of the number. -/
theorem unknownCount_congr {lo len : Nat} {p : Nat → Bool} (hle : lo + len ≤ 0x10000)
    (h : ∀ op : Word, lo ≤ op.toNat → op.toNat < lo + len → (decodeWord op = none ↔ p op.toNat = true)) :
    unknownCount lo len = (List.range' lo len).countP p := by
  refine List.countP_congr fun n hn => ?_
  obtain ⟨hlo, hhi⟩ := List.mem_range'_1.mp hn
  have hop : (BitVec.ofNat 16 n).toNat = n := Nat.mod_eq_of_lt (by omega)
  rw [Option.isNone_iff_eq_none, h _ (by rwa [hop]) (by rwa [hop]), hop]

theorem unknownCount_eq_zero {lo len : Nat} (hle : lo + len ≤ 0x10000)
    (h : ∀ op : Word, lo ≤ op.toNat → op.toNat < lo + len → decodeWord op ≠ none) : unknownCount lo len = 0 := by
  rw [unknownCount_congr (p := fun _ => false) hle fun op hlo hhi => by simp [h op hlo hhi]]
  exact congrFun List.countP_false _

/-- A property of the residue modulo m holds equally often in each of k periods. -/
theorem countP_range'_mod (q : Nat → Bool) (m a k : Nat) :
    (List.range' (m * a) (m * k)).countP (fun n => q (n % m)) = k * (List.range m).countP q := by
  induction k with
  | zero => simp
  | succ k ih =>
    have hperiod : (List.range' (m * a + m * k) m).countP (fun n => q (n % m)) = (List.range m).countP q := by
      rw [List.range'_eq_map_range, List.countP_map, ← Nat.mul_add]
      refine List.countP_congr fun r hr => ?_
      simp [Nat.mod_eq_of_lt (List.mem_range.mp hr)]
    rw [Nat.mul_succ, ← List.range'_append_1, List.countP_append, ih, hperiod, Nat.succ_mul]

/-- The count of the group with top nibble t, where being unknown is a property q of the number modulo m: what q holds
of below m, once for each of the k values of the fields above. -/
theorem unknownCount_group (t m k : Nat) (q : Nat → Bool) (ht : t < 16) (hmk : m * k = 0x1000)
    (h : ∀ op : Word, op.toNat / 0x1000 = t → (decodeWord op = none ↔ q (op.toNat % m) = true)) :
    unknownCount (0x1000 * t) 0x1000 = k * (List.range m).countP q := by
  rw [← countP_range'_mod q m (k * t) k, ← Nat.mul_assoc, hmk]
  exact unknownCount_congr (by omega) fun op hlo hhi => h op (by omega)

/-- How many numbers below m a list of distinct such numbers leaves out. -/
theorem countP_notMem_range {l : List Nat} {m : Nat} (hl : l.Nodup) (hm : ∀ k ∈ l, k < m) :
    (List.range m).countP (fun k => decide (k ∉ l)) = m - l.length := by
  have hperm : ((List.range m).filter (· ∈ l)).Perm l := by
    rw [List.perm_ext_iff_of_nodup (List.nodup_range.filter _) hl]
    simpa using hm
  have hsum := List.length_eq_countP_add_countP (fun k => decide (k ∈ l)) (l := List.range m)
  rw [List.countP_eq_length_filter, hperm.length_eq, List.length_range] at hsum
  simp only [decide_not, decide_eq_true_eq] at hsum ⊢
  omega

theorem unknownCount_group5 : unknownCount 0x5000 0x1000 = 3840 :=
  (unknownCount_group 0x5 0x10 256 (fun n => n ≠ 0) (by decide) rfl
    fun op ht => by simp [decodeWord_eq_none_iff, ht]).trans (by decide)

theorem unknownCount_group9 : unknownCount 0x9000 0x1000 = 3840 :=
  (unknownCount_group 0x9 0x10 256 (fun n => n ≠ 0) (by decide) rfl
    fun op ht => by simp [decodeWord_eq_none_iff, ht]).trans (by decide)

theorem unknownCount_group8 : unknownCount 0x8000 0x1000 = 1792 :=
  (unknownCount_group 0x8 0x10 256 (fun n => n ∈ [0x8, 0x9, 0xA, 0xB, 0xC, 0xD, 0xF]) (by decide) rfl
    fun op ht => by simp [decodeWord_eq_none_iff, ht]).trans (by decide)

theorem unknownCount_groupE : unknownCount 0xE000 0x1000 = 4064 :=
  (unknownCount_group 0xE 0x100 16 (fun kk => kk ∉ [0x9E, 0xA1]) (by decide) rfl
    fun op ht => by simp [decodeWord_eq_none_iff, ht]).trans
    (by rw [countP_notMem_range (by decide) (by decide)]; rfl)

theorem unknownCount_groupF : unknownCount 0xF000 0x1000 = 3952 :=
  (unknownCount_group 0xF 0x100 16 (fun kk => kk ∉ [0x07, 0x0A, 0x15, 0x18, 0x1E, 0x29, 0x33, 0x55, 0x65])
    (by decide) rfl fun op ht => by simp [decodeWord_eq_none_iff, ht]).trans
    (by rw [countP_notMem_range (by decide) (by decide)]; rfl)

/-- Every opcode outside the five groups is defined. -/
theorem decodeWord_ne_none {op : Word} (h : op.toNat / 0x1000 ∉ [0x5, 0x8, 0x9, 0xE, 0xF]) : decodeWord op ≠ none := by
  rw [Ne, decodeWord_eq_none_iff]
  simp only [List.mem_cons, List.not_mem_nil, or_false] at h
  omega

theorem unknownCount_all : unknownCount 0 0x10000 = 17488 := by
  have h0 : unknownCount 0x0000 0x5000 = 0 := unknownCount_eq_zero (by decide) fun op hlo hhi =>
    decodeWord_ne_none (by simp; omega)
  have h6 : unknownCount 0x6000 0x2000 = 0 := unknownCount_eq_zero (by decide) fun op hlo hhi =>
    decodeWord_ne_none (by simp; omega)
  have hA : unknownCount 0xA000 0x4000 = 0 := unknownCount_eq_zero (by decide) fun op hlo hhi =>
    decodeWord_ne_none (by simp; omega)
  have to5 : unknownCount 0 0x6000 = 3840 := unknownCount_append 0 0x5000 0x1000 h0 unknownCount_group5
  have to7 : unknownCount 0 0x8000 = 3840 := unknownCount_append 0 0x6000 0x2000 to5 h6
  have to8 : unknownCount 0 0x9000 = 5632 := unknownCount_append 0 0x8000 0x1000 to7 unknownCount_group8
  have to9 : unknownCount 0 0xA000 = 9472 := unknownCount_append 0 0x9000 0x1000 to8 unknownCount_group9
  have toD : unknownCount 0 0xE000 = 9472 := unknownCount_append 0 0xA000 0x4000 to9 hA
  have toE : unknownCount 0 0xF000 = 13536 := unknownCount_append 0 0xE000 0x1000 toD unknownCount_groupE
  exact unknownCount_append 0 0xF000 0x1000 toE unknownCount_groupF

/-- Settles O5: no row matches by the two directions of the opcode map, the groups by the decode tree, and the counts
by the periods of the deciding field. -/
theorem unknownOpcodesAreTheListedOnes : Obligations.UnknownOpcodesAreTheListedOnes := by
  unfold Obligations.UnknownOpcodesAreTheListedOnes
  refine ⟨decodeWord_eq_none_iff_no_row, decodeWord_eq_none_iff, unknownCount_group5, unknownCount_group9,
    unknownCount_group8, unknownCount_groupE, unknownCount_groupF, unknownCount_all, ?_⟩
  rw [unknownCount_all]

end Sys2Proof
end

section
/-! The cycle: what a step does after the fetch (40_cycle.md R74 to R78). -/

namespace Sys2Proof.Machine

/-- The opcode the spec names by its value, `mem[a] * 256 + mem[a+1]`, is the fetched word (40_cycle.md R74). -/
theorem eq_fetchWord_of_toNat {s : State} {op : Word}
    (h : op.toNat = (s.mem.read s.pc.toNat).toNat * 256 + (s.mem.read (s.pc.toNat + 1)).toNat) : op = s.fetchWord :=
  BitVec.eq_of_toNat_eq (h.trans (fetchWord_toNat s).symm)

/-- Where a fetch is possible, the fetch advance does not wrap (40_cycle.md R75). -/
theorem State.CanFetch.toNat_pc_add_two {s : State} (h : s.CanFetch) : (s.pc + 2#16).toNat = s.pc.toNat + 2 := by
  have hpc : s.pc.toNat ≤ 4094 := h.2
  exact BitVec.toNat_add_of_lt (show s.pc.toNat + 2 < 2 ^ 16 by omega)

/-- The fetch advance and the report touch pc and the report stream, and nothing else (40_cycle.md R75, R78). -/
theorem reportUnknown_fetchAdvance_changes (s : State) (op a : Word) :
    ChangesOnly s (s.fetchAdvance.reportUnknown op a) (fun p => p = .pc ∨ p = .reports) :=
  ((setPc_changes s _).weaken fun _ => Or.inl).trans
    ((reportUnknown_changes s.fetchAdvance op a).weaken fun _ => Or.inr)

/-- Settles O7: the opcode is the fetched word, whose decoded meaning the step runs after the fetch advance. -/
theorem stepRunsTheDecodedInstruction : Obligations.StepRunsTheDecodedInstruction := by
  unfold Obligations.StepRunsTheDecodedInstruction
  intro s op i hs hop hi
  obtain rfl := eq_fetchWord_of_toNat hop
  exact ⟨step_of_decoded hs hi, hs.toNat_pc_add_two⟩

/-- Settles O8: the step is the fetch advance and the report of the fetched word with the old pc. -/
theorem unknownOpcodeIsReportedAndSkipped : Obligations.UnknownOpcodeIsReportedAndSkipped := by
  unfold Obligations.UnknownOpcodeIsReportedAndSkipped
  intro s op hs hop hi
  obtain rfl := eq_fetchWord_of_toNat hop
  exact ⟨s.fetchAdvance.reportUnknown s.fetchWord s.pc, step_of_unknown hs hi, rfl, rfl,
    reportUnknown_fetchAdvance_changes s _ _⟩

end Sys2Proof.Machine
end

section
/-! The spec's opcode patterns as numbers, and what they decode to (30_encoding.md R56 to R63). -/

namespace Sys2Proof

/-! ### The word of each format as a number (R56) -/

theorem toNat_encNNN (top : BitVec 4) (nnn : Addr) : (encNNN top nnn).toNat = top.toNat * 0x1000 + nnn.toNat := by
  rw [encNNN, BitVec.toNat_append, ← Nat.shiftLeft_add_eq_or_of_lt nnn.isLt, Nat.shiftLeft_eq]

theorem toNat_encXKK (top : BitVec 4) (x : Reg) (kk : Byte) :
    (encXKK top x kk).toNat = top.toNat * 0x1000 + 0x100 * x.val + kk.toNat := by
  have hfields : (nibble x ++ kk).toNat = x.val * 0x100 + kk.toNat := by
    rw [BitVec.toNat_append, ← Nat.shiftLeft_add_eq_or_of_lt kk.isLt, Nat.shiftLeft_eq]; rfl
  have hword := toNat_encNNN top (nibble x ++ kk)
  rw [hfields] at hword
  rw [show encXKK top x kk = encNNN top (nibble x ++ kk) from rfl, hword]
  omega

theorem toNat_encXYN (top : BitVec 4) (x y : Reg) (n : BitVec 4) :
    (encXYN top x y n).toNat = top.toNat * 0x1000 + 0x100 * x.val + 0x10 * y.val + n.toNat := by
  have hfields : (nibble y ++ n).toNat = y.val * 0x10 + n.toNat := by
    rw [BitVec.toNat_append, ← Nat.shiftLeft_add_eq_or_of_lt n.isLt, Nat.shiftLeft_eq]; rfl
  have hword := toNat_encXKK top x (nibble y ++ n)
  rw [hfields] at hword
  rw [show encXYN top x y n = encXKK top x (nibble y ++ n) from rfl, hword]
  omega

/-! ### A well-formed instruction is what its word decodes to (R57, R63) -/

/-- SYS is what its word decodes to, where nnn makes it neither of the other two words of group 0 (R58). -/
theorem decodeGroup0_encNNN {nnn : Addr} (hcls : nnn ≠ 0x0E0#12) (hret : nnn ≠ 0x0EE#12) :
    decodeGroup0 (encNNN 0x0#4 nnn) = some (.sys nnn) := by
  have hcls' : encNNN 0x0#4 nnn ≠ 0x00E0#16 := fun e => hcls (encNNN_inj (b := 0x0E0#12) e)
  have hret' : encNNN 0x0#4 nnn ≠ 0x00EE#16 := fun e => hret (encNNN_inj (b := 0x0EE#12) e)
  rw [decodeGroup0, if_neg hcls', if_neg hret', fieldNnn_encNNN]

theorem decodeWord_encode {i : Instr} (h : i.wf = true) : decodeWord (encode i) = some i := by
  cases i with
  | cls | ret => rfl
  | sys nnn =>
    simp only [Instr.wf, Bool.and_eq_true, bne_iff_ne] at h
    obtain ⟨hcls, hret⟩ := h
    rw [encode, decodeWord_group0 (fieldTop_encNNN _ _), decodeGroup0_encNNN hcls hret]
  | ldReg | orReg | andReg | xorReg | addReg | sub | shr | subn | shl =>
    rw [encode, decodeWord_group8 (fieldTop_encXYN ..)]
    simp [decodeGroup8]
  | skp | sknp =>
    rw [encode, decodeWord_groupE (fieldTop_encXKK ..)]
    simp [decodeGroupE]
  | ldVxDt | ldVxK | ldDtVx | ldStVx | addI | ldF | ldB | storeRegs | loadRegs =>
    rw [encode, decodeWord_groupF (fieldTop_encXKK ..)]
    simp [decodeGroupF]
  | _ => simp [encode, decodeWord]

/-- A number that is the value of an instruction's word decodes to that instruction. -/
theorem decodeWord_ofNat {i : Instr} {k : Nat} (hwf : i.wf = true) (hk : (encode i).toNat = k) :
    decodeWord (BitVec.ofNat 16 k) = some i := by
  rw [← hk, BitVec.ofNat_toNat, BitVec.setWidth_eq, decodeWord_encode hwf]

end Sys2Proof
end

section
/-! Control flow: SYS, the jumps, CALL, RET and the compare-and-skip instructions (41_control_flow.md R81 to R89). -/

namespace Sys2Proof.Machine

/-! ### Zero extension keeps the value of an operand (R82, R85) -/

theorem toNat_zextAddr (nnn : Addr) : (zextAddr nnn).toNat = nnn.toNat :=
  BitVec.toNat_setWidth_of_le (by omega)

theorem toNat_zextByte (b : Byte) : (zextByte b).toNat = b.toNat :=
  BitVec.toNat_setWidth_of_le (by omega)

/-- The sum of JP V0 is exact: it is at most 255 + 4095 (R85). -/
theorem toNat_zextByte_add_zextAddr (b : Byte) (nnn : Addr) :
    (zextByte b + zextAddr nnn).toNat = b.toNat + nnn.toNat := by
  have hb := b.isLt
  have hn := nnn.isLt
  rw [BitVec.toNat_add_of_lt] <;> rw [toNat_zextByte, toNat_zextAddr]
  omega

/-! ### SYS and the jumps -/

/-- Settles O25: the word of SYS nnn is the number nnn, and SYS answers the state it was given. -/
theorem sysIsIgnored : Obligations.SysIsIgnored := by
  unfold Obligations.SysIsIgnored
  intro s nnn
  refine ⟨fun hcls hret => ?_, s, rfl, ChangesOnly.refl s _⟩
  have hwf : (Instr.sys nnn).wf = true := by simp [Instr.wf, hcls, hret]
  exact decodeWord_ofNat hwf ((toNat_encNNN 0x0#4 nnn).trans (Nat.zero_add _))

/-- Settles O26: JP writes pc alone, with the zero extension of its target. -/
theorem jpSetsPc : Obligations.JpSetsPc := by
  unfold Obligations.JpSetsPc
  intro s nnn
  exact ⟨decodeWord_ofNat rfl (toNat_encNNN 0x1#4 nnn),
    s.setPc (zextAddr nnn), rfl, toNat_zextAddr nnn, setPc_changes s _⟩

/-- Settles O30: JP V0 writes pc alone, and its sum does not wrap. -/
theorem jpV0AddsV0 : Obligations.JpV0AddsV0 := by
  unfold Obligations.JpV0AddsV0
  intro s nnn
  exact ⟨decodeWord_ofNat rfl (toNat_encNNN 0xB#4 nnn),
    s.setPc (zextByte (s.getV 0) + zextAddr nnn), rfl, toNat_zextByte_add_zextAddr _ nnn, setPc_changes s _⟩

/-! ### CALL and RET -/

/-- CALL with room on the stack touches pc, the stack pointer and the entry it pointed at (R83). -/
theorem call_changes {s t : State} {nnn : Addr} (hroom : s.sp.val < 16) (h : exec (.call nnn) s = .next t) :
    ChangesOnly s t (fun p => p = .pc ∨ p = .sp ∨ p = .stack ⟨s.sp.val, hroom⟩) := by
  obtain rfl := Host.Outcome.next.inj ((execCall_of_room nnn hroom).symm.trans h)
  intro p hp
  cases p with
  | stack j =>
    have hne : s.sp.val ≠ j.val := fun e => hp (.inr (.inr (congrArg Part.stack (Fin.ext e.symm))))
    exact Vector.getElem_set_ne hroom j.isLt hne
  | pc => exact absurd (.inl rfl) hp
  | sp => exact absurd (.inr (.inl rfl)) hp
  | _ => rfl

/-- RET with an entry on the stack touches pc and the stack pointer; the popped entry keeps its value (R84). -/
theorem ret_changes {s t : State} (hentry : s.sp.val ≠ 0) (h : exec .ret s = .next t) :
    ChangesOnly s t (fun p => p = .pc ∨ p = .sp) := by
  obtain rfl := Host.Outcome.next.inj ((execRet_of_some hentry).symm.trans h)
  intro p hp
  cases p with
  | pc => exact absurd (.inl rfl) hp
  | sp => exact absurd (.inr rfl) hp
  | _ => rfl

/-- Settles O27: with room, the push of pc = a + 2 and the jump; on a full stack, the fault at a. -/
theorem callPushesOrOverflows : Obligations.CallPushesOrOverflows := by
  unfold Obligations.CallPushesOrOverflows
  intro s nnn a hpc
  refine ⟨decodeWord_ofNat rfl (toNat_encNNN 0x2#4 nnn), fun hroom => ?room, fun hfull => ?full⟩
  case room =>
    have hslot : (s.stack.set s.sp.val s.pc)[s.sp.val] = a + 2#16 := (Vector.getElem_set_self hroom).trans hpc
    exact ⟨_, execCall_of_room nnn hroom, hslot, rfl, toNat_zextAddr nnn,
      call_changes hroom (execCall_of_room nnn hroom)⟩
  case full =>
    have hexec : exec (.call nnn) s = .next (s.raiseFatal .stackOverflow s.fetchAddr) := execCall_of_full nnn hfull
    rw [State.fetchAddr_eq hpc] at hexec
    exact ⟨_, hexec, raiseFatal_taken s _ a⟩

/-- Settles O28: with an entry, the pop; on an empty stack, the fault at a. -/
theorem retPopsOrUnderflows : Obligations.RetPopsOrUnderflows := by
  unfold Obligations.RetPopsOrUnderflows
  intro s a hpc
  refine ⟨decodeWord_encode (i := .ret) rfl, fun hentry => ?entry, fun hempty => ?empty⟩
  case entry =>
    have hne : s.sp.val ≠ 0 := Nat.ne_of_gt hentry
    exact ⟨_, execRet_of_some hne, rfl, rfl, ret_changes hne (execRet_of_some hne)⟩
  case empty =>
    have hexec : exec .ret s = .next (s.raiseFatal .stackUnderflow s.fetchAddr) := execRet_of_empty hempty
    rw [State.fetchAddr_eq hpc] at hexec
    exact ⟨_, hexec, raiseFatal_taken s _ a⟩

/-! ### The compare-and-skip instructions -/

/-- An instruction whose meaning is a skip on the comparison P adds 2 to pc where P holds, and touches pc alone. -/
theorem exists_skip {s : State} {i : Instr} {c : Bool} {P : Prop} [Decidable P]
    (hexec : exec i s = .next (s.skipIf c)) (hc : c = true ↔ P) :
    ∃ t, exec i s = .next t ∧ t.pc = (if P then s.pc + 2#16 else s.pc) ∧ ChangesOnly s t (fun p => p = .pc) :=
  ⟨s.skipIf c, hexec, (State.skipIf_pc s c).trans (if_congr hc rfl rfl), skipIf_changes s c⟩

/-- A register skip with a low nibble other than 0 is unknown (R88, R89). -/
theorem decodeWord_skip_unknown {top : Nat} (htop : top = 0x5 ∨ top = 0x9) (x y : Reg) {n : Fin 16} (hn : n ≠ 0) :
    decodeWord (BitVec.ofNat 16 (top * 0x1000 + 0x100 * x.val + 0x10 * y.val + n.val)) = none := by
  have hn' : n.val ≠ 0 := Fin.val_ne_of_ne hn
  rw [decodeWord_eq_none_iff, BitVec.toNat_ofNat]
  rcases htop with rfl | rfl
  · exact .inl (by omega)
  · exact .inr (.inl (by omega))

/-- Settles O31: each is one skip on its own comparison; the unknown words are those of groups 5 and 9. -/
theorem skipsCompareAndAdvance : Obligations.SkipsCompareAndAdvance := by
  unfold Obligations.SkipsCompareAndAdvance
  intro s x y kk
  refine ⟨⟨?seImmWord, exists_skip rfl beq_iff_eq⟩, ⟨?sneImmWord, exists_skip rfl bne_iff_ne⟩,
    ⟨?seRegWord, exists_skip rfl beq_iff_eq⟩, ⟨?sneRegWord, exists_skip rfl bne_iff_ne⟩, fun n hn =>
      ⟨decodeWord_skip_unknown (.inl rfl) x y hn, decodeWord_skip_unknown (.inr rfl) x y hn⟩⟩
  case seImmWord => exact decodeWord_ofNat rfl (toNat_encXKK 0x3#4 x kk)
  case sneImmWord => exact decodeWord_ofNat rfl (toNat_encXKK 0x4#4 x kk)
  case seRegWord => exact decodeWord_ofNat rfl (toNat_encXYN 0x5#4 x y 0x0#4)
  case sneRegWord => exact decodeWord_ofNat rfl (toNat_encXYN 0x9#4 x y 0x0#4)

end Sys2Proof.Machine
end

section
/-! The ALU: register loads, arithmetic, logic and shifts (42_alu.md R91 to R102). -/

namespace Sys2Proof.Machine

/-! ### The words of the group and the two shapes of its meanings -/

/-- An instruction whose fields stand at group 8, x, y and n is what the word 8xyn decodes to (R60). -/
theorem decodeWord_8xyn {i : Instr} {x y : Reg} (n : BitVec 4) (hwf : i.wf = true)
    (hi : encode i = encXYN 0x8#4 x y n) :
    decodeWord (BitVec.ofNat 16 (0x8000 + n.toNat + 0x100 * x.val + 0x10 * y.val)) = some i := by
  have hword : (encXYN 0x8#4 x y n).toNat = 0x8000 + 0x100 * x.val + 0x10 * y.val + n.toNat := toNat_encXYN 0x8#4 x y n
  exact decodeWord_ofNat hwf (by rw [hi, hword]; omega)

/-- An instruction whose meaning is one register write leaves the value there, and touches nothing else. -/
theorem exists_setV {s : State} {i : Instr} {x : Reg} {b : Byte} (hexec : exec i s = .next (s.setV x b)) :
    ∃ t, exec i s = .next t ∧ t.getV x = b ∧ ChangesOnly s t (fun p => p = .v x) :=
  ⟨s.setV x b, hexec, State.setV_getV_same s x b, setV_changes s x b⟩

/-- An instruction whose meaning is a result and a flag leaves the flag in VF and, unless x is VF, the result in Vx;
it touches nothing else (R91). -/
theorem exists_setResultFlag {s : State} {i : Instr} {x : Reg} {r f : Byte}
    (hexec : exec i s = .next (s.setResultFlag x r f)) :
    ∃ t, exec i s = .next t ∧ (x ≠ VF → t.getV x = r) ∧ t.getV VF = f ∧
      ChangesOnly s t (fun p => p = .v x ∨ p = .v VF) :=
  ⟨s.setResultFlag x r f, hexec, State.setResultFlag_getV_result s r f, State.setResultFlag_getV_VF s x r f,
    setResultFlag_changes s x r f⟩

/-! ### The flag values and the results as numbers -/

theorem flagOf_decide (p : Prop) [Decidable p] : flagOf (decide p) = if p then 1#8 else 0#8 := by
  simp [flagOf]

theorem carryFlag_eq (a b : Byte) : carryFlag a b = if a.toNat + b.toNat > 255 then 1#8 else 0#8 :=
  flagOf_decide _

theorem notBorrowFlag_eq (a b : Byte) : notBorrowFlag a b = if a.toNat > b.toNat then 1#8 else 0#8 :=
  flagOf_decide _

theorem toNat_shiftedOutLow (a : Byte) : (shiftedOutLow a).toNat = a.toNat % 2 := by
  rw [shiftedOutLow, BitVec.toNat_and]
  exact Nat.and_one_is_mod a.toNat

theorem toNat_shiftedOutHigh (a : Byte) : (shiftedOutHigh a).toNat = a.toNat / 128 := by
  have ha := a.isLt
  have hbit : (shiftedOutHigh a).toNat = (a >>> 7).toNat % 2 := toNat_shiftedOutLow (a >>> 7)
  rw [hbit, BitVec.toNat_ushiftRight, Nat.shiftRight_eq_div_pow]
  omega

/-- A difference of bytes is the difference of their values modulo 256 (R99, R101). -/
theorem toNat_sub_eq_emod (a b : Byte) : ((a - b).toNat : Int) = ((a.toNat : Int) - b.toNat) % 256 := by
  have ha := a.isLt
  have hb := b.isLt
  rw [BitVec.toNat_sub]
  omega

theorem toNat_ushiftRight_one (a : Byte) : (a >>> 1).toNat = a.toNat / 2 := by
  rw [BitVec.toNat_ushiftRight, Nat.shiftRight_eq_div_pow, Nat.pow_one]

theorem toNat_shiftLeft_one (a : Byte) : (a <<< 1).toNat = 2 * a.toNat % 256 := by
  rw [BitVec.toNat_shiftLeft, Nat.shiftLeft_eq, Nat.pow_one, Nat.mul_comm]

/-! ### Instructions that write no flag of their own -/

/-- Settles O32: each load is one register write. -/
theorem loadsSetTheRegister : Obligations.LoadsSetTheRegister := by
  unfold Obligations.LoadsSetTheRegister
  intro s x y kk
  exact ⟨⟨decodeWord_ofNat rfl (toNat_encXKK 0x6#4 x kk), exists_setV rfl⟩,
    ⟨decodeWord_8xyn 0x0#4 rfl rfl, exists_setV rfl⟩⟩

/-- Settles O33: one register write, of a sum of bytes, which wraps modulo 256. -/
theorem addImmediateWrapsWithoutFlag : Obligations.AddImmediateWrapsWithoutFlag := by
  unfold Obligations.AddImmediateWrapsWithoutFlag
  intro s x kk
  obtain ⟨t, hexec, hsum, hframe⟩ := exists_setV (s := s) (i := .addImm x kk) rfl
  have hwrap : (t.getV x).toNat = ((s.getV x).toNat + kk.toNat) % 256 := by rw [hsum]; exact BitVec.toNat_add ..
  exact ⟨decodeWord_ofNat rfl (toNat_encXKK 0x7#4 x kk), t, hexec, hwrap, hframe⟩

/-- Settles O35: each logic operation is one register write. -/
theorem logicIsBitwiseWithoutFlag : Obligations.LogicIsBitwiseWithoutFlag := by
  unfold Obligations.LogicIsBitwiseWithoutFlag
  intro s x y
  exact ⟨⟨decodeWord_8xyn 0x1#4 rfl rfl, exists_setV rfl⟩, ⟨decodeWord_8xyn 0x2#4 rfl rfl, exists_setV rfl⟩,
    ⟨decodeWord_8xyn 0x3#4 rfl rfl, exists_setV rfl⟩⟩

/-! ### Instructions that write a result, then the flag -/

/-- Settles O36: the result is the wrapped sum and the flag the carry, both of the old values. -/
theorem addSetsCarry : Obligations.AddSetsCarry := by
  unfold Obligations.AddSetsCarry
  intro s x y
  obtain ⟨t, hexec, hsum, hflag, hframe⟩ := exists_setResultFlag (s := s) (i := .addReg x y) rfl
  refine ⟨decodeWord_8xyn 0x4#4 rfl rfl, t, hexec, fun hx => ?_, hflag.trans (carryFlag_eq _ _), hframe⟩
  rw [hsum hx]
  exact BitVec.toNat_add ..

/-- A meaning that writes the difference a - b and its strict comparison has the clauses of R99 and R101. -/
theorem exists_difference {s : State} {i : Instr} {x : Reg} {a b : Byte}
    (hexec : exec i s = .next (s.setResultFlag x (a - b) (notBorrowFlag a b))) :
    ∃ t, exec i s = .next t ∧ (x ≠ VF → ((t.getV x).toNat : Int) = ((a.toNat : Int) - b.toNat) % 256) ∧
      t.getV VF = (if a.toNat > b.toNat then 1#8 else 0#8) ∧ ChangesOnly s t (fun p => p = .v x ∨ p = .v VF) := by
  obtain ⟨t, hnext, hdiff, hflag, hframe⟩ := exists_setResultFlag hexec
  refine ⟨t, hnext, fun hx => ?_, hflag.trans (notBorrowFlag_eq a b), hframe⟩
  rw [hdiff hx]
  exact toNat_sub_eq_emod a b

/-- Settles O37: SUB is the difference Vx - Vy, SUBN the difference Vy - Vx. -/
theorem subtractionsSetStrictNotBorrow : Obligations.SubtractionsSetStrictNotBorrow := by
  unfold Obligations.SubtractionsSetStrictNotBorrow
  intro s x y
  exact ⟨⟨decodeWord_8xyn 0x5#4 rfl rfl, exists_difference rfl⟩,
    ⟨decodeWord_8xyn 0x7#4 rfl rfl, exists_difference rfl⟩⟩

/-- Settles O38: the shifts halve and double the old Vx, and VF is its lowest or highest bit. -/
theorem shiftsSetTheBitShiftedOut : Obligations.ShiftsSetTheBitShiftedOut := by
  unfold Obligations.ShiftsSetTheBitShiftedOut
  intro s x y
  refine ⟨⟨decodeWord_8xyn 0x6#4 rfl rfl, ?right⟩, ⟨decodeWord_8xyn 0xE#4 rfl rfl, ?left⟩⟩
  case right =>
    obtain ⟨t, hexec, hhalf, hflag, hframe⟩ := exists_setResultFlag (s := s) (i := .shr x y) rfl
    refine ⟨t, hexec, fun hx => ?_, ?_, hframe⟩
    · rw [hhalf hx, toNat_ushiftRight_one]
    · rw [hflag, toNat_shiftedOutLow]
  case left =>
    obtain ⟨t, hexec, hdouble, hflag, hframe⟩ := exists_setResultFlag (s := s) (i := .shl x y) rfl
    refine ⟨t, hexec, fun hx => ?_, ?_, hframe⟩
    · rw [hdouble hx, toNat_shiftLeft_one]
    · rw [hflag, toNat_shiftedOutHigh]

end Sys2Proof.Machine
end

section
/-! The index register and the memory instructions (43_index_memory.md R105 to R110). -/

namespace Sys2Proof.Machine

/-! ### The words of the group and the shapes of its meanings -/

/-- An instruction whose fields stand at group F, x and kk is what the word Fxkk decodes to (R62). -/
theorem decodeWord_Fxkk {i : Instr} {x : Reg} (kk : Byte) (hwf : i.wf = true) (hi : encode i = encXKK 0xF#4 x kk) :
    decodeWord (BitVec.ofNat 16 (0xF000 + kk.toNat + 0x100 * x.val)) = some i := by
  have hword : (encXKK 0xF#4 x kk).toNat = 0xF000 + 0x100 * x.val + kk.toNat := toNat_encXKK 0xF#4 x kk
  exact decodeWord_ofNat hwf (by rw [hi, hword]; omega)

/-- An instruction whose meaning is a write of I leaves the value there, and touches nothing else. -/
theorem exists_setI {s : State} {i : Instr} {a : Word} {n : Nat} (hexec : exec i s = .next (s.setI a))
    (ha : a.toNat = n) : ∃ t, exec i s = .next t ∧ t.i.toNat = n ∧ ChangesOnly s t (fun p => p = .i) :=
  ⟨s.setI a, hexec, ha, setI_changes s a⟩

/-- An instruction whose meaning raises a fatal fault at the fetch address a takes it there. -/
theorem exists_fatalTaken {s : State} {i : Instr} {code : FaultCode} {a : Word} (hpc : s.pc = a + 2#16)
    (hexec : exec i s = .next (s.raiseFatal code s.fetchAddr)) :
    ∃ t, exec i s = .next t ∧ FatalTaken s t code a := by
  rw [State.fetchAddr_eq hpc] at hexec
  exact ⟨_, hexec, raiseFatal_taken s code a⟩

/-- An instruction that does A where its highest address is in memory, and else raises MEM_RANGE, has the two clauses
of R130. -/
theorem memRange_clauses {s : State} {i : Instr} {a : Word} {top : Nat} {A : Prop} (hpc : s.pc = a + 2#16)
    (hcases : (top ≤ 0xFFF ∧ A) ∨ (top > 0xFFF ∧ exec i s = .next (s.raiseFatal .memRange s.fetchAddr))) :
    (top ≤ 0xFFF → A) ∧ (top > 0xFFF → ∃ t, exec i s = .next t ∧ FatalTaken s t .memRange a) := by
  rcases hcases with ⟨hfits, hA⟩ | ⟨hover, hexec⟩
  · exact ⟨fun _ => hA, fun hover => absurd hfits (Nat.not_le_of_gt hover)⟩
  · exact ⟨fun hfits => absurd hfits (Nat.not_le_of_gt hover), fun _ => exists_fatalTaken hpc hexec⟩

/-! ### The values written, as numbers -/

theorem toNat_add_zextByte (a : Word) (b : Byte) : (a + zextByte b).toNat = (a.toNat + b.toNat) % 65536 := by
  rw [BitVec.toNat_add, toNat_zextByte]

/-- The glyph address of the whole byte is exact: it is at most 0x050 + 5 * 255 (R107). -/
theorem toNat_glyphAddr (b : Byte) : (glyphAddr b).toNat = 0x050 + 5 * b.toNat := by
  have hb := b.isLt
  exact Nat.mod_eq_of_lt (show 0x050 + 5 * b.toNat < 2 ^ 16 by omega)

theorem map_toNat_decimalDigits (b : Byte) :
    (decimalDigits b).map BitVec.toNat = [b.toNat / 100, b.toNat / 10 % 10, b.toNat % 10] := by
  have hb := b.isLt
  simp only [decimalDigits, List.map_cons, List.map_nil, BitVec.toNat_ofNat, List.cons.injEq, and_true]
  omega

/-! ### The index register -/

/-- Settles O40: each is one write of I; only the sum of ADD I wraps. -/
theorem indexIsLoadedAddedAndPointed : Obligations.IndexIsLoadedAddedAndPointed := by
  unfold Obligations.IndexIsLoadedAddedAndPointed
  intro s x nnn
  exact ⟨⟨decodeWord_ofNat rfl (toNat_encNNN 0xA#4 nnn), exists_setI rfl (toNat_zextAddr nnn)⟩,
    ⟨decodeWord_Fxkk 0x1E#8 rfl rfl, exists_setI rfl (toNat_add_zextByte _ _)⟩,
    ⟨decodeWord_Fxkk 0x29#8 rfl rfl, exists_setI rfl (toNat_glyphAddr _)⟩⟩

/-! ### The blocks through I -/

/-- Settles O41: the written block is the three digits. -/
theorem bcdStoresTheDigits : Obligations.BcdStoresTheDigits := by
  unfold Obligations.BcdStoresTheDigits
  intro s x a hpc
  obtain ⟨hfits, hover⟩ := memRange_clauses (i := .ldB x) hpc (execLdB_cases x s)
  refine ⟨decodeWord_Fxkk 0x33#8 rfl rfl, fun htop => ?_, hover⟩
  obtain ⟨t, hwrite, hexec⟩ := hfits htop
  have hdigit : ∀ k < 3, (t.mem.read (s.i.toNat + k)).toNat =
      [(s.getV x).toNat / 100, (s.getV x).toNat / 10 % 10, (s.getV x).toNat % 10].getD k 0 := fun k hk => by
    rw [State.writeBlock_read hwrite k hk, ← map_toNat_decimalDigits]
    exact (List.getD_map (l := decimalDigits _) 0#8 BitVec.toNat).symm
  exact ⟨t, hexec, hdigit 0 (by decide), hdigit 1 (by decide), hdigit 2 (by decide),
    State.writeBlock_changes hwrite⟩

/-- Settles O42: the written block is V0..Vx. -/
theorem storeRegistersFillsTheBlock : Obligations.StoreRegistersFillsTheBlock := by
  unfold Obligations.StoreRegistersFillsTheBlock
  intro s x a hpc
  obtain ⟨hfits, hover⟩ := memRange_clauses (i := .storeRegs x) hpc (execStoreRegs_cases x s)
  refine ⟨decodeWord_Fxkk 0x55#8 rfl rfl, fun htop => ?_, hover⟩
  obtain ⟨t, hwrite, hexec⟩ := hfits htop
  have hlen := State.regsUpTo_length s x
  refine ⟨t, hexec, fun k hk => ?stored, (State.writeBlock_changes hwrite).weaken ?frame⟩
  case stored =>
    have hk' : k.val < (s.regsUpTo x).length := hlen ▸ Nat.lt_succ_of_le hk
    rw [State.writeBlock_read hwrite k.val hk', State.regsUpTo_getD s hk]
  case frame =>
    rintro p ⟨k, hk, rfl⟩
    exact ⟨k, by omega, rfl⟩

/-- Settles O43: the registers named by the block that was read are V0..Vx. -/
theorem loadRegistersReadsTheBlock : Obligations.LoadRegistersReadsTheBlock := by
  unfold Obligations.LoadRegistersReadsTheBlock
  intro s x a hpc
  obtain ⟨hfits, hover⟩ := memRange_clauses (i := .loadRegs x) hpc (execLoadRegs_cases x s)
  refine ⟨decodeWord_Fxkk 0x65#8 rfl rfl, fun htop => ?_, hover⟩
  obtain ⟨bs, hread, hexec⟩ := hfits htop
  have hlen := State.readBlock_length hread
  refine ⟨s.setRegs bs, hexec, fun k hk => ?loaded, (setRegs_changes s bs).weaken ?frame⟩
  case loaded => rw [State.setRegs_getV, State.readBlock_getD hread (Nat.lt_succ_of_le hk)]
  case frame =>
    rintro p ⟨k, hk, rfl⟩
    exact ⟨k, Fin.le_def.mpr (by omega), rfl⟩

end Sys2Proof.Machine
end

section
/-! The display instructions: CLS and DRW (44_display.md R112 to R117). -/

namespace Sys2Proof.Machine

/-! ### Writing the display -/

/-- A write of the display touches the cells on which it differs from the old one. -/
theorem setDisp_changes {s : State} {d : Display} {touched : Part → Prop}
    (hkept : ∀ r c, ¬ touched (.cell r c) → d.cell r c = s.disp.cell r c) :
    ChangesOnly s { s with disp := d } touched := by
  intro p hp
  cases p with
  | cell r c => exact hkept r c hp
  | _ => rfl

/-- Settles O46: CLS writes the display that is off everywhere, and no other field. -/
theorem clsClearsTheDisplay : Obligations.ClsClearsTheDisplay := by
  unfold Obligations.ClsClearsTheDisplay
  intro s
  exact ⟨decodeWord_encode (i := .cls) rfl, { s with disp := Display.clear }, rfl, Display.cell_clear,
    setDisp_changes fun r c hcell => absurd ⟨r, c, rfl⟩ hcell⟩

/-! ### One draw -/

/-- From s to t the sprite of `DRW Vx, Vy, n` has been drawn: each covered cell is toggled, VF is the collision, and
nothing else is changed (R113 to R115). -/
structure SpriteDrawn (s t : State) (x y : Reg) (n : Fin 16) : Prop where
  toggled : ∀ r c, SpriteCovers s x y n r c → t.disp.cell r c = !(s.disp.cell r c)
  collision : (∃ r c, SpriteCovers s x y n r c ∧ s.disp.cell r c = true) → t.getV VF = 1#8
  noCollision : ¬ (∃ r c, SpriteCovers s x y n r c ∧ s.disp.cell r c = true) → t.getV VF = 0#8
  frame : ChangesOnly s t (fun p => p = .v VF ∨ ∃ r c, SpriteCovers s x y n r c ∧ p = .cell r c)

section
variable {s : State} {n : Fin 16} {sprite : List Byte}

/-- The rows of a sprite that was read are few enough for the display: no two land on the same row. -/
theorem sprite_length_le (hread : s.readBlock n.val = some sprite) : 0 + sprite.length ≤ 32 := by
  have hlen := State.readBlock_length hread
  omega

theorem drawRows_cell_of_covers (hread : s.readBlock n.val = some sprite) {x y : Reg} {r : Fin 32} {c : Fin 64}
    (hcov : SpriteCovers s x y n r c) (hit : Bool) :
    (drawRows (s.spriteCol x) (s.spriteRow y) 0 sprite (s.disp, hit)).1.cell r c = !(s.disp.cell r c) := by
  rw [drawRows_cell _ _ _ _ (sprite_length_le hread), (rowsCover_iff_SpriteCovers hread x y r c).mpr hcov,
    Bool.xor_true]

theorem drawRows_cell_of_not_covers (hread : s.readBlock n.val = some sprite) {x y : Reg} {r : Fin 32} {c : Fin 64}
    (hcov : ¬ SpriteCovers s x y n r c) (hit : Bool) :
    (drawRows (s.spriteCol x) (s.spriteRow y) 0 sprite (s.disp, hit)).1.cell r c = s.disp.cell r c := by
  rw [← rowsCover_iff_SpriteCovers hread, Bool.not_eq_true] at hcov
  rw [drawRows_cell _ _ _ _ (sprite_length_le hread), hcov, Bool.xor_false]

theorem drawRows_hit_iff_covers (hread : s.readBlock n.val = some sprite) (x y : Reg) :
    (drawRows (s.spriteCol x) (s.spriteRow y) 0 sprite (s.disp, false)).2 = true ↔
      ∃ r c, SpriteCovers s x y n r c ∧ s.disp.cell r c = true := by
  simp [drawRows_hit _ _ _ _ (sprite_length_le hread), rowsCover_iff_SpriteCovers hread]

/-- DRW whose rows are all in memory draws its sprite. -/
theorem exists_spriteDrawn (x y : Reg) (hfits : n.val = 0 ∨ s.i.toNat + (n.val - 1) ≤ 0xFFF) :
    ∃ t, exec (.drw x y n) s = .next t ∧ SpriteDrawn s t x y n := by
  rcases execDrw_cases x y n s with ⟨-, sprite, hread, hexec⟩ | ⟨hpos, hover, -⟩
  case inr => omega
  refine ⟨_, hexec, fun r c hcov => drawRows_cell_of_covers hread hcov false, fun hhit => ?_, fun hmiss => ?_, ?_⟩
  · rw [State.setV_getV_same, (drawRows_hit_iff_covers hread x y).mpr hhit]; rfl
  · rw [← drawRows_hit_iff_covers hread, Bool.not_eq_true] at hmiss
    rw [State.setV_getV_same, hmiss]; rfl
  · refine (setDisp_changes fun r c hcell => ?_).trans ((setV_changes _ VF _).weaken fun _ => .inl)
    exact drawRows_cell_of_not_covers hread (fun hcov => hcell (.inr ⟨r, c, hcov, rfl⟩)) false

end

/-- DRW with a row beyond memory raises MEM_RANGE (R130). -/
theorem exec_drw_of_overrun {s : State} (x y : Reg) {n : Fin 16} (hpos : n.val > 0)
    (hover : s.i.toNat + (n.val - 1) > 0xFFF) :
    exec (.drw x y n) s = .next (s.raiseFatal .memRange s.fetchAddr) := by
  rcases execDrw_cases x y n s with ⟨hfits, -⟩ | ⟨-, -, hexec⟩
  · omega
  · exact hexec

/-- Settles O47: with every row in memory, the sprite is drawn; with one beyond it, the fault at a. -/
theorem drwTogglesTheCoveredCells : Obligations.DrwTogglesTheCoveredCells := by
  unfold Obligations.DrwTogglesTheCoveredCells
  intro s x y n a hpc
  refine ⟨decodeWord_ofNat rfl (toNat_encXYN 0xD#4 x y (nibble n)), fun hfits => ?drawn, fun hpos hover =>
    exists_fatalTaken hpc (exec_drw_of_overrun x y hpos hover)⟩
  case drawn =>
    obtain ⟨t, hexec, hdrawn⟩ := exists_spriteDrawn x y hfits
    exact ⟨t, hexec, hdrawn.toggled, hdrawn.collision, hdrawn.noCollision, hdrawn.frame⟩

/-! ### Two draws -/

theorem spriteDrawn_of_exec {s t : State} {x y : Reg} {n : Fin 16}
    (hfits : n.val = 0 ∨ s.i.toNat + (n.val - 1) ≤ 0xFFF) (hexec : exec (.drw x y n) s = .next t) :
    SpriteDrawn s t x y n := by
  obtain ⟨t', hexec', hdrawn⟩ := exists_spriteDrawn x y hfits
  obtain rfl := Host.Outcome.next.inj (hexec'.symm.trans hexec)
  exact hdrawn

namespace SpriteDrawn

theorem cell_of_not_covers {s t : State} {x y : Reg} {n : Fin 16} (h : SpriteDrawn s t x y n) {r : Fin 32}
    {c : Fin 64} (hcov : ¬ SpriteCovers s x y n r c) : t.disp.cell r c = s.disp.cell r c := by
  refine h.frame (.cell r c) ?_
  rintro (hv | ⟨r', c', hcov', hcell⟩)
  · cases hv
  · cases hcell
    exact hcov hcov'

/-- VF is 1 exactly on a collision (R115). -/
theorem flag_iff {s t : State} {x y : Reg} {n : Fin 16} (h : SpriteDrawn s t x y n) :
    t.getV VF = 1#8 ↔ ∃ r c, SpriteCovers s x y n r c ∧ s.disp.cell r c = true := by
  refine ⟨fun hone => ?_, h.collision⟩
  by_contra hmiss
  have hzero := h.noCollision hmiss
  rw [hone] at hzero
  cases hzero

end SpriteDrawn

/-- The covered cells depend on I, the sprite bytes and the start cell alone (R117). -/
theorem spriteCovers_congr {s s' : State} {x y x' y' : Reg} {n : Fin 16} (hi : s'.i = s.i)
    (hbytes : ∀ row < n.val, s'.mem.read (s.i.toNat + row) = s.mem.read (s.i.toNat + row))
    (hcol : (s'.getV x').toNat % 64 = (s.getV x).toNat % 64) (hrow : (s'.getV y').toNat % 32 = (s.getV y).toNat % 32)
    (r : Fin 32) (c : Fin 64) : SpriteCovers s' x' y' n r c ↔ SpriteCovers s x y n r c := by
  unfold SpriteCovers
  rw [hi, hcol, hrow]
  refine exists_congr fun row => and_congr_right fun hlt => ?_
  rw [hbytes row hlt]

section
variable {s t s' u : State} {x y x' y' : Reg} {n : Fin 16} (hfirst : SpriteDrawn s t x y n)
  (hsecond : SpriteDrawn s' u x' y' n) (hdisp : s'.disp = t.disp)
  (hcov : ∀ r c, SpriteCovers s' x' y' n r c ↔ SpriteCovers s x y n r c)
include hfirst hsecond hdisp hcov

/-- A covered cell is toggled twice, any other not at all. -/
theorem disp_of_drawn_twice : u.disp = s.disp := by
  refine Display.ext_of_cell fun r c => ?_
  by_cases h : SpriteCovers s x y n r c
  · rw [hsecond.toggled r c ((hcov r c).mpr h), hdisp, hfirst.toggled r c h, Bool.not_not]
  · rw [hsecond.cell_of_not_covers (mt (hcov r c).mp h), hdisp, hfirst.cell_of_not_covers h]

/-- The second draw collides with a cell that the first one turned on. -/
theorem flag_of_drawn_twice :
    u.getV VF = 1#8 ↔ ∃ r c, SpriteCovers s x y n r c ∧ s.disp.cell r c = false := by
  rw [hsecond.flag_iff]
  refine exists_congr fun r => exists_congr fun c => ?_
  rw [hcov r c]
  refine and_congr_right fun h => ?_
  rw [hdisp, hfirst.toggled r c h, Bool.not_eq_true']

end

/-- Settles O48: both draws cover the same cells, so each is toggled twice, the second time from its negation. -/
theorem secondDrawRestoresTheDisplay : Obligations.SecondDrawRestoresTheDisplay := by
  unfold Obligations.SecondDrawRestoresTheDisplay
  intro s t s' u x y x' y' n hfits hexec hi hbytes hcol hrow hdisp hexec'
  have hfirst := spriteDrawn_of_exec hfits hexec
  have hsecond := spriteDrawn_of_exec (hi.symm ▸ hfits) hexec'
  have hcov := spriteCovers_congr hi hbytes hcol hrow
  exact ⟨disp_of_drawn_twice hfirst hsecond hdisp hcov, hfirst.flag_iff,
    flag_of_drawn_twice hfirst hsecond hdisp hcov⟩

end Sys2Proof.Machine
end

section
/-! The keypad and the timers: SKP, SKNP, LD Vx, K and the loads of DT and ST (45_keys_timers.md R118 to R123). -/

namespace Sys2Proof.Machine

/-! ### The words of group E and the shapes of the meanings -/

/-- An instruction whose fields stand at group E, x and kk is what the word Exkk decodes to (R61). -/
theorem decodeWord_Exkk {i : Instr} {x : Reg} (kk : Byte) (hwf : i.wf = true) (hi : encode i = encXKK 0xE#4 x kk) :
    decodeWord (BitVec.ofNat 16 (0xE000 + kk.toNat + 0x100 * x.val)) = some i :=
  decodeWord_ofNat hwf (by rw [hi, toNat_encXKK, Nat.add_right_comm]; rfl)

/-- An instruction whose meaning is a write of pc leaves the address there, and touches nothing else. -/
theorem exists_setPc {s : State} {i : Instr} {a : Word} (hexec : exec i s = .next (s.setPc a)) :
    ∃ t, exec i s = .next t ∧ t.pc = a ∧ ChangesOnly s t (fun p => p = .pc) :=
  ⟨s.setPc a, hexec, rfl, setPc_changes s a⟩

theorem toNat_keyByte (k : Key) : (keyByte k).toNat = k.val :=
  Nat.mod_eq_of_lt (by omega)

/-! ### The keypad -/

/-- Settles O50: with no key pressed the pc found goes back by the 2 that the fetch added; otherwise the key found is
the least one, and its number fits a byte. -/
theorem keyWaitTakesTheLeastKeyOrRepeats : Obligations.KeyWaitTakesTheLeastKeyOrRepeats := by
  unfold Obligations.KeyWaitTakesTheLeastKeyOrRepeats
  intro s x a hpc
  refine ⟨decodeWord_Fxkk 0x0A#8 rfl rfl, fun hnone => exists_setPc ?repeats, fun k hk hleast => ?takes⟩
  case repeats =>
    have hback : s.pc - 2#16 = a := State.fetchAddr_eq hpc
    rw [← hback]
    exact execLdVxK_of_none x hnone
  case takes =>
    obtain ⟨t, hexec, hv, hframe⟩ := exists_setV (i := .ldVxK x) (execLdVxK_of_least x hk hleast)
    exact ⟨t, hexec, hv ▸ toNat_keyByte k, hframe⟩

/-- Settles O49: a number below 16 names a latch, on which each is one skip; any other number is the fault. -/
theorem keySkipsTestTheKeyNumbered : Obligations.KeySkipsTestTheKeyNumbered := by
  unfold Obligations.KeySkipsTestTheKeyNumbered
  intro s x a hpc
  refine ⟨decodeWord_Exkk 0x9E#8 rfl rfl, decodeWord_Exkk 0xA1#8 rfl rfl, fun hkey => ?tests, fun hnokey => ?faults⟩
  case tests =>
    exact ⟨exists_skip (i := .skp x) (execSkp_of_key hkey) Iff.rfl,
      exists_skip (i := .sknp x) (execSknp_of_key hkey) (by rw [Bool.not_eq_true'])⟩
  case faults =>
    exact ⟨exists_fatalTaken (i := .skp x) hpc (execSkp_of_no_key hnokey),
      exists_fatalTaken (i := .sknp x) hpc (execSknp_of_no_key hnokey)⟩

/-! ### The timers -/

/-- Settles O51: each is one write, of Vx, DT or ST. -/
theorem timersAreReadAndWritten : Obligations.TimersAreReadAndWritten := by
  unfold Obligations.TimersAreReadAndWritten
  intro s x
  refine ⟨⟨decodeWord_Fxkk 0x07#8 rfl rfl, exists_setV rfl⟩, ⟨decodeWord_Fxkk 0x15#8 rfl rfl, ?writesDt⟩,
    ⟨decodeWord_Fxkk 0x18#8 rfl rfl, ?writesSt⟩⟩
  case writesDt => exact ⟨s.setDt (s.getV x), rfl, rfl, setDt_changes s _⟩
  case writesSt => exact ⟨s.setSt (s.getV x), rfl, rfl, setSt_changes s _⟩

end Sys2Proof.Machine
end

section
/-! The fatal faults: that they are precise, and PC_OVERRUN (60_exceptions.md R127, R132). -/

namespace Sys2Proof.Machine

/-! ### What an instruction can do to the run status -/

theorem State.writeBlock_halted {s t : State} {bs : List Byte} (h : s.writeBlock bs = some t) :
    t.halted = s.halted := by
  obtain ⟨rfl, -⟩ := State.writeBlock_some h
  rfl

/-- Every instruction completes: it keeps the halted flag, or all it does is raise a fatal fault at its fetch
address (R125, R132). -/
theorem exec_completes (i : Instr) (s : State) :
    ∃ t, exec i s = .next t ∧ (t.halted = s.halted ∨ ∃ code, t = s.raiseFatal code s.fetchAddr) := by
  cases i with
  | ret =>
    by_cases hempty : s.sp.val = 0
    · exact ⟨_, execRet_of_empty hempty, .inr ⟨_, rfl⟩⟩
    · exact ⟨_, execRet_of_some hempty, .inl rfl⟩
  | call nnn =>
    rcases Nat.lt_or_eq_of_le (Nat.le_of_lt_succ s.sp.isLt) with hroom | hfull
    · exact ⟨_, execCall_of_room nnn hroom, .inl rfl⟩
    · exact ⟨_, execCall_of_full nnn hfull, .inr ⟨_, rfl⟩⟩
  | drw x y n =>
    rcases execDrw_cases x y n s with ⟨-, _, -, hexec⟩ | ⟨-, -, hexec⟩
    · exact ⟨_, hexec, .inl rfl⟩
    · exact ⟨_, hexec, .inr ⟨_, rfl⟩⟩
  | ldB x =>
    rcases execLdB_cases x s with ⟨-, t, hwrite, hexec⟩ | ⟨-, hexec⟩
    · exact ⟨t, hexec, .inl (State.writeBlock_halted hwrite)⟩
    · exact ⟨_, hexec, .inr ⟨_, rfl⟩⟩
  | storeRegs x =>
    rcases execStoreRegs_cases x s with ⟨-, t, hwrite, hexec⟩ | ⟨-, hexec⟩
    · exact ⟨t, hexec, .inl (State.writeBlock_halted hwrite)⟩
    · exact ⟨_, hexec, .inr ⟨_, rfl⟩⟩
  | loadRegs x =>
    rcases execLoadRegs_cases x s with ⟨-, bs, -, hexec⟩ | ⟨-, hexec⟩
    · exact ⟨_, hexec, .inl (State.setRegs_halted s bs)⟩
    · exact ⟨_, hexec, .inr ⟨_, rfl⟩⟩
  | skp x =>
    rcases Nat.lt_or_ge (s.getV x).toNat 16 with hkey | hnokey
    · exact ⟨_, execSkp_of_key hkey, .inl (State.skipIf_halted _ _)⟩
    · exact ⟨_, execSkp_of_no_key hnokey, .inr ⟨_, rfl⟩⟩
  | sknp x =>
    rcases Nat.lt_or_ge (s.getV x).toNat 16 with hkey | hnokey
    · exact ⟨_, execSknp_of_key hkey, .inl (State.skipIf_halted _ _)⟩
    · exact ⟨_, execSknp_of_no_key hnokey, .inr ⟨_, rfl⟩⟩
  | ldVxK x =>
    unfold exec execLdVxK
    cases s.firstKey with
    | none => exact ⟨_, rfl, .inl rfl⟩
    | some k => exact ⟨_, rfl, .inl rfl⟩
  | seImm | sneImm | seReg | sneReg => exact ⟨_, rfl, .inl (State.skipIf_halted _ _)⟩
  | _ => exact ⟨_, rfl, .inl rfl⟩

/-- An instruction that halts a running core does nothing but raise a fatal fault at its fetch address. -/
theorem exec_halts_by_raiseFatal {i : Instr} {s t : State} (hrun : s.halted = false) (h : exec i s = .next t)
    (hhalt : t.halted = true) : ∃ code, t = s.raiseFatal code s.fetchAddr := by
  obtain ⟨u, hexec, hu⟩ := exec_completes i s
  obtain rfl := Host.Outcome.next.inj (hexec.symm.trans h)
  refine hu.resolve_left fun hkeep => ?_
  rw [hkeep, hrun] at hhalt
  cases hhalt

/-! ### What a step that halts has done -/

/-- A step that halts a running core raised PC_OVERRUN on the state before the cycle, or raised a fault on the state
after the fetch advance; either way at the pc before the cycle. -/
theorem step_halts_by_raiseFatal {s t : State} (h : step s = .next t) (hhalt : t.halted = true) :
    (s.pc.toNat > 4094 ∧ t = s.raiseFatal .pcOverrun s.pc) ∨
      (s.pc.toNat ≤ 4094 ∧ ∃ code, t = s.fetchAdvance.raiseFatal code s.pc) := by
  obtain ⟨hrun, hover | ⟨hfetch, ⟨i, -, hexec⟩ | ⟨-, rfl⟩⟩⟩ := step_cases h
  · exact .inl hover
  · obtain ⟨code, ht⟩ := exec_halts_by_raiseFatal (s := s.fetchAdvance) hrun hexec hhalt
    rw [State.fetchAddr_eq (State.fetchAdvance_pc s)] at ht
    exact .inr ⟨hfetch, code, ht⟩
  · rw [State.reportUnknown_halted, State.fetchAdvance_halted, hrun] at hhalt
    cases hhalt

/-- A fault raised after the fetch advance touches pc and the run status, and nothing else (R132). -/
theorem raiseFatal_fetchAdvance_changes (s : State) (code : FaultCode) (a : Word) :
    ChangesOnly s (s.fetchAdvance.raiseFatal code a) (fun p => p = .pc ∨ p.isStatus) := by
  obtain ⟨-, -, -, hframe⟩ := raiseFatal_taken s.fetchAdvance code a
  exact ((setPc_changes s _).weaken fun _ => .inl).trans (hframe.weaken fun _ => .inr)

/-- Settles O12: a step that halts is one fatal fault, before the fetch or after the fetch advance. -/
theorem faultsArePrecise : Obligations.FaultsArePrecise := by
  unfold Obligations.FaultsArePrecise
  intro s t _ hstep hhalt
  rcases step_halts_by_raiseFatal hstep hhalt with ⟨hover, rfl⟩ | ⟨hfetch, code, rfl⟩
  · obtain ⟨-, -, haddr, hframe⟩ := raiseFatal_taken s .pcOverrun s.pc
    exact ⟨haddr, fun hfetch => absurd hover (Nat.not_lt_of_ge hfetch), fun _ => hframe⟩
  · exact ⟨rfl, fun _ => ⟨rfl, raiseFatal_fetchAdvance_changes s code s.pc⟩,
      fun hover => absurd hover (Nat.not_lt_of_ge hfetch)⟩

/-- Settles O9: the fatal check fires before the fetch, and raising the fault is all the step does. -/
theorem pcOverrunIsFatal : Obligations.PcOverrunIsFatal := by
  unfold Obligations.PcOverrunIsFatal
  intro s hrun hover
  exact ⟨s.raiseFatal .pcOverrun s.pc, step_of_overrun hrun hover, raiseFatal_taken s .pcOverrun s.pc⟩

end Sys2Proof.Machine
end

section
/-! The decoder and the encoder undo each other (30_encoding.md R57 to R64). -/

namespace Sys2Proof

/-- The bytes of a word that decodes are decoded as that word, and the bytes after them are left (R54). -/
theorem decodeBytes_of_decodeWord {op : Word} {i : Instr} (h : decodeWord op = some i) (rest : List Byte) :
    decodeBytes (highByte op :: lowByte op :: rest) = .ok i rest := by
  rw [decodeBytes, wordOfBytes_highByte_lowByte, h]

/-- Settles O2: the word of a well-formed instruction decodes to it, hence so do its two bytes. -/
theorem decodeInvertsEncode : Obligations.DecodeInvertsEncode := by
  unfold Obligations.DecodeInvertsEncode
  intro i hwf
  exact ⟨decodeWord_encode hwf, decodeBytes_of_decodeWord (decodeWord_encode hwf)⟩

/-- Settles O3, by the decode tree: each of its leaves keeps every bit of the word. -/
theorem encodeInvertsDecode : Obligations.EncodeInvertsDecode := by
  unfold Obligations.EncodeInvertsDecode
  intro op i h
  exact encode_of_decodeWord h

/-- Settles O1: the decoder evaluates on the twelve words. -/
theorem sampleWordsDecode : Obligations.SampleWordsDecode := by
  unfold Obligations.SampleWordsDecode
  decide

end Sys2Proof
end

section
/-! The invariant of the machine: it holds at reset, and every cycle and every host operation keeps it
(10_state.md R21, R28, 70_reset_and_hazards.md R150 to R154). -/

namespace Sys2Proof.Machine

/-- Settles O15: memory lists nothing, pc is 0x200, the stack is zero and no fault stands. -/
theorem resetMeetsTheInvariant : Obligations.ResetMeetsTheInvariant where
  memory := Memory.wf_nil
  pcBound := by decide
  stackBound j := by rw [State.reset_stack]; decide
  status := rfl
  noFault _ := rfl

/-- An outcome is one next state at most. -/
theorem next_unique {o : Result} {t u : State} (ht : o = .next t) (hu : o = .next u) : t = u :=
  Host.Outcome.next.inj (ht.symm.trans hu)

/-! ### Each operation keeps the invariant -/

namespace State.Inv

/-- A state that agrees on memory, the stack and the run status meets the invariant where its pc is in bounds. -/
theorem of_agree {s t : State} (hs : s.Inv) (hmem : t.mem = s.mem) (hstack : t.stack = s.stack)
    (hhalted : t.halted = s.halted) (hcode : t.faultCode = s.faultCode) (haddr : t.faultAddr = s.faultAddr)
    (hpc : t.pc.toNat ≤ 0x10FE) : t.Inv where
  memory := hmem ▸ hs.memory
  pcBound := hpc
  stackBound := hstack ▸ hs.stackBound
  status := by rw [hhalted, hcode, hs.status]
  noFault hnone := by rw [haddr, hs.noFault (hcode ▸ hnone)]

theorem setV {s : State} (hs : s.Inv) (x : Reg) (b : Byte) : (s.setV x b).Inv :=
  hs.of_agree rfl rfl rfl rfl rfl hs.pcBound

theorem setRegs {s : State} (hs : s.Inv) (bs : List Byte) : (s.setRegs bs).Inv :=
  hs.of_agree (State.setRegs_mem s bs) (State.setRegs_stack s bs) (State.setRegs_halted s bs)
    (State.setRegs_faultCode s bs) (State.setRegs_faultAddr s bs) (State.setRegs_pc s bs ▸ hs.pcBound)

theorem setDisp {s : State} (hs : s.Inv) (d : Display) : State.Inv { s with disp := d } :=
  hs.of_agree rfl rfl rfl rfl rfl hs.pcBound

theorem setKeys {s : State} (hs : s.Inv) (k : Vector Bool 16) : (s.setKeys k).Inv :=
  hs.of_agree rfl rfl rfl rfl rfl hs.pcBound

theorem tick {s : State} (hs : s.Inv) : s.tick.Inv :=
  hs.of_agree rfl rfl rfl rfl rfl hs.pcBound

theorem load {s t : State} {image : List Byte} (hs : s.Inv) (h : s.load image = .next t) : t.Inv := by
  have hwf := State.load_wf hs.memory h
  obtain ⟨-, rfl⟩ := State.load_next h
  exact ⟨hwf, hs.pcBound, hs.stackBound, hs.status, hs.noFault⟩

theorem setPc {s : State} (hs : s.Inv) {a : Word} (ha : a.toNat ≤ 0x10FE) : (s.setPc a).Inv :=
  hs.of_agree rfl rfl rfl rfl rfl ha

/-- A skip leads at most to 0x1002: the address after the fetch advance is at most 0x1000. -/
theorem skipIf {s : State} (hs : s.Inv) (hpc : s.pc.toNat ≤ 0x1000) (c : Bool) : (s.skipIf c).Inv := by
  cases c with
  | false => exact hs
  | true => exact hs.setPc (by rw [BitVec.toNat_add, BitVec.toNat_ofNat]; omega)

/-- A fatal fault makes the run status consistent whatever it was (R125). -/
theorem raiseFatal {s : State} (hs : s.Inv) (code : FaultCode) (a : Word) : (s.raiseFatal code a).Inv :=
  ⟨hs.memory, hs.pcBound, hs.stackBound, rfl, fun hnone => nomatch hnone⟩

theorem writeBlock {s t : State} {bs : List Byte} (hs : s.Inv) (h : s.writeBlock bs = some t) : t.Inv := by
  have hwf := State.writeBlock_wf hs.memory h
  obtain ⟨rfl, -⟩ := State.writeBlock_some h
  exact ⟨hwf, hs.pcBound, hs.stackBound, hs.status, hs.noFault⟩

/-- Pushing an address of at most 0x1000 keeps the bound of the stack (R21). -/
theorem push {s : State} (hs : s.Inv) (hpc : s.pc.toNat ≤ 0x1000) {k : Nat} (hk : k < 16) (n : Fin 17) :
    State.Inv { s with stack := s.stack.set k s.pc, sp := n } where
  memory := hs.memory
  pcBound := hs.pcBound
  stackBound j := by
    rw [Fin.getElem_fin, Vector.getElem_set]
    split
    · exact hpc
    · exact hs.stackBound j
  status := hs.status
  noFault := hs.noFault

end State.Inv

/-! ### Every instruction keeps it -/

/-- LD Vx, K goes back to its own address with no key pressed, or takes the key found (R121). -/
theorem execLdVxK_cases (x : Reg) (s : State) :
    (s.firstKey = none ∧ execLdVxK x s = .next (s.setPc (s.pc - 2#16))) ∨
    (∃ k, s.firstKey = some k ∧ execLdVxK x s = .next (s.setV x (keyByte k))) := by
  unfold execLdVxK
  cases s.firstKey with
  | none => exact .inl ⟨rfl, rfl⟩
  | some k => exact .inr ⟨k, rfl, rfl⟩

/-- An instruction fetched from a, which starts with pc = a + 2, keeps the invariant. -/
theorem exec_keeps_inv {i : Instr} {s t : State} {a : Word} (ha : a.toNat ≤ 4094) (hpc : s.pc = a + 2#16)
    (hs : s.Inv) (h : exec i s = .next t) : t.Inv := by
  have hbound : s.pc.toNat ≤ 0x1000 := by rw [hpc, BitVec.toNat_add, BitVec.toNat_ofNat]; omega
  have hnext : ∀ {u}, exec i s = .next u → u.Inv → t.Inv := fun hu hInv => next_unique hu h ▸ hInv
  cases i with
  | jp nnn =>
    exact hnext rfl (hs.setPc (by have := nnn.isLt; rw [toNat_zextAddr]; omega))
  | jpV0 nnn =>
    refine hnext rfl (hs.setPc ?_)
    have hv := (s.getV 0).isLt
    have hn := nnn.isLt
    rw [toNat_zextByte_add_zextAddr]
    omega
  | call nnn =>
    rcases Nat.lt_or_eq_of_le (Nat.le_of_lt_succ s.sp.isLt) with hroom | hfull
    · exact hnext (execCall_of_room nnn hroom)
        ((hs.push hbound hroom _).setPc (by have := nnn.isLt; rw [toNat_zextAddr]; omega))
    · exact hnext (execCall_of_full nnn hfull) (hs.raiseFatal _ _)
  | ret =>
    by_cases hempty : s.sp.val = 0
    · exact hnext (execRet_of_empty hempty) (hs.raiseFatal _ _)
    · have hentry := hs.stackBound ⟨s.sp.val - 1, by omega⟩
      exact hnext (execRet_of_some hempty) (hs.of_agree rfl rfl rfl rfl rfl (Nat.le_trans hentry (by decide)))
  | seImm | sneImm | seReg | sneReg => exact hnext rfl (hs.skipIf hbound _)
  | skp x =>
    rcases Nat.lt_or_ge (s.getV x).toNat 16 with hkey | hnokey
    · exact hnext (execSkp_of_key hkey) (hs.skipIf hbound _)
    · exact hnext (execSkp_of_no_key hnokey) (hs.raiseFatal _ _)
  | sknp x =>
    rcases Nat.lt_or_ge (s.getV x).toNat 16 with hkey | hnokey
    · exact hnext (execSknp_of_key hkey) (hs.skipIf hbound _)
    · exact hnext (execSknp_of_no_key hnokey) (hs.raiseFatal _ _)
  | ldVxK x =>
    rcases execLdVxK_cases x s with ⟨-, hexec⟩ | ⟨k, -, hexec⟩
    · have hback : s.pc - 2#16 = a := State.fetchAddr_eq hpc
      exact hnext hexec (hs.setPc (by rw [hback]; omega))
    · exact hnext hexec (hs.setV x _)
  | drw x y n =>
    rcases execDrw_cases x y n s with ⟨-, _, -, hexec⟩ | ⟨-, -, hexec⟩
    · exact hnext hexec ((hs.setDisp _).setV VF _)
    · exact hnext hexec (hs.raiseFatal _ _)
  | ldB x =>
    rcases execLdB_cases x s with ⟨-, u, hwrite, hexec⟩ | ⟨-, hexec⟩
    · exact hnext hexec (hs.writeBlock hwrite)
    · exact hnext hexec (hs.raiseFatal _ _)
  | storeRegs x =>
    rcases execStoreRegs_cases x s with ⟨-, u, hwrite, hexec⟩ | ⟨-, hexec⟩
    · exact hnext hexec (hs.writeBlock hwrite)
    · exact hnext hexec (hs.raiseFatal _ _)
  | loadRegs x =>
    rcases execLoadRegs_cases x s with ⟨-, bs, -, hexec⟩ | ⟨-, hexec⟩
    · exact hnext hexec (hs.setRegs bs)
    · exact hnext hexec (hs.raiseFatal _ _)
  | _ => exact hnext rfl (hs.of_agree rfl rfl rfl rfl rfl hs.pcBound)

/-- Settles O16: PC_OVERRUN and the report keep all but pc and the run status, and the instruction starts from a
state that meets the invariant, since the fetch advance leads at most to 0x1000. -/
theorem stepKeepsTheInvariant : Obligations.StepKeepsTheInvariant := by
  unfold Obligations.StepKeepsTheInvariant
  intro s t hs h
  obtain ⟨-, ⟨-, rfl⟩ | ⟨hfetch, hrun⟩⟩ := step_cases h
  · exact hs.raiseFatal _ _
  have hadvance : (s.pc + 2#16).toNat ≤ 0x10FE := by rw [BitVec.toNat_add, BitVec.toNat_ofNat]; omega
  rcases hrun with ⟨i, -, hexec⟩ | ⟨-, rfl⟩
  · exact exec_keeps_inv hfetch (State.fetchAdvance_pc s) (hs.setPc hadvance) hexec
  · exact (hs.setPc hadvance).of_agree rfl rfl rfl rfl rfl hadvance

/-! ### Every run of host operations keeps it -/

/-- The core of a session, once there is one, meets the invariant. -/
def Session.Inv (c : Session) : Prop := ∀ s, c.state = some s → s.Inv

theorem Session.inv_between {f : State → State} (hf : ∀ s : State, s.Inv → (f s).Inv) {c d : Session} (hc : c.Inv)
    (h : c.between f = .next d) : d.Inv := by
  obtain ⟨s, hcs, hds⟩ := Session.between_next h
  intro t ht
  obtain rfl := Option.some.inj (hds.symm.trans ht)
  exact hf s (hc s hcs)

/-- A load that goes through starts from a session just initialized (R152). -/
theorem Session.load_next {image : List Byte} {c d : Session} (h : c.load image = .next d) :
    ∃ s t, c = .initialized s ∧ s.load image = .next t ∧ d = .loaded t := by
  cases c with
  | initialized s =>
    simp only [Session.load] at h
    split at h <;> cases h
    next t hload => exact ⟨s, t, rfl, hload, rfl⟩
  | off | loaded | running => cases h

/-- Initialize goes through before any other operation alone (R150). -/
theorem Session.initCore_next {c d : Session} (h : c.initCore = .next d) :
    c = .off ∧ d = .initialized State.reset := by
  cases c with
  | off => exact ⟨rfl, (Host.Outcome.next.inj h).symm⟩
  | initialized | loaded | running => cases h

theorem EnvOp.apply_keeps_inv {op : EnvOp} {c d : Session} (hc : c.Inv) (h : op.apply c = .next d) : d.Inv := by
  cases op with
  | init =>
    obtain ⟨-, rfl⟩ := Session.initCore_next h
    rintro _ ⟨⟩
    exact resetMeetsTheInvariant
  | load image =>
    obtain ⟨s, t, rfl, hload, rfl⟩ := Session.load_next h
    rintro _ ⟨⟩
    exact (hc s rfl).load hload
  | cycle =>
    obtain ⟨s, t, hcs, hstep, rfl⟩ := Session.cycle_next h
    rintro _ ⟨⟩
    exact stepKeepsTheInvariant s t (hc s hcs) hstep
  | setKeys k => exact Session.inv_between (f := (·.setKeys k)) (fun _ hs => hs.setKeys k) hc h
  | tick => exact Session.inv_between (f := State.tick) (fun _ hs => hs.tick) hc h
  | readState => exact Session.inv_between (f := id) (fun _ hs => hs) hc h

theorem runEnv_keeps_inv {ops : List EnvOp} {c d : Session} (hc : c.Inv) (h : runEnv ops c = .next d) : d.Inv := by
  induction ops generalizing c with
  | nil => exact Host.Outcome.next.inj h ▸ hc
  | cons op ops ih =>
    obtain ⟨e, hop, hops⟩ := runEnv_cons_next h
    exact ih (EnvOp.apply_keeps_inv hc hop) hops

/-- Settles O17: before Initialize there is no core state, and every operation keeps the invariant. -/
theorem everyRunKeepsTheInvariant : Obligations.EveryRunKeepsTheInvariant := by
  unfold Obligations.EveryRunKeepsTheInvariant
  intro ops c s hrun hcs
  exact runEnv_keeps_inv (c := .off) (fun _ hs => nomatch hs) hrun s hcs

end Sys2Proof.Machine
end

section
/-! What the host operations do, and their order in a run (60_exceptions.md R140, R142, R148,
70_reset_and_hazards.md R150 to R154). -/

namespace Sys2Proof.Machine

/-! ### Tick, SetKeys and Load -/

/-- Counting down by one and stopping at 0 is the subtraction of natural numbers (R140). -/
theorem toNat_countDown (b : Byte) : (if b = 0#8 then 0#8 else b - 1#8).toNat = b.toNat - 1 := by
  split
  case isTrue hb => rw [hb]; rfl
  case isFalse hb =>
    have hpos : b.toNat ≠ 0 := fun e => hb (BitVec.eq_of_toNat_eq e)
    rw [BitVec.toNat_sub_of_le (show 1 ≤ b.toNat by omega)]
    rfl

theorem State.toNat_tick_dt (s : State) : s.tick.dt.toNat = s.dt.toNat - 1 := toNat_countDown s.dt

theorem State.toNat_tick_st (s : State) : s.tick.st.toNat = s.st.toNat - 1 := toNat_countDown s.st

theorem tick_changes (s : State) : ChangesOnly s s.tick (fun p => p = .dt ∨ p = .st) := by
  intro p hp
  cases p with
  | dt => exact absurd (.inl rfl) hp
  | st => exact absurd (.inr rfl) hp
  | _ => rfl

theorem setKeys_changes (s : State) (k : Vector Bool 16) :
    ChangesOnly s (s.setKeys k) (fun p => ∃ j, p = .key j) := by
  intro p hp
  cases p with
  | key j => exact absurd ⟨j, rfl⟩ hp
  | _ => rfl

/-- Settles O18: each timer is counted down, and no other field is written. -/
theorem tickDecrementsTheTimers : Obligations.TickDecrementsTheTimers := by
  unfold Obligations.TickDecrementsTheTimers
  intro s
  exact ⟨s.toNat_tick_dt, s.toNat_tick_st, tick_changes s⟩

/-- Settles O19: the latches are the ones given, and no other field is written. -/
theorem setKeysOverwritesTheLatches : Obligations.SetKeysOverwritesTheLatches := by
  unfold Obligations.SetKeysOverwritesTheLatches
  intro s k
  exact ⟨fun _ => rfl, setKeys_changes s k⟩

/-- A write of listed bytes to memory touches the addresses they go to. -/
theorem writeBytes_changes (s : State) (base : Nat) (bs : List Byte) :
    ChangesOnly s { s with mem := s.mem.writeBytes base bs } (fun p => ∃ k < bs.length, p = .mem (base + k)) := by
  intro p hp
  cases p with
  | mem a =>
    have hout : ¬ (base ≤ a ∧ a < base + bs.length) := fun ⟨hle, hlt⟩ =>
      hp ⟨a - base, by omega, by rw [Nat.add_sub_cancel' hle]⟩
    exact (Memory.read_writeBytes bs s.mem base a).trans (if_neg hout)
  | _ => rfl

/-- Each listed byte stands where it was written. -/
theorem Memory.read_writeBytes_getElem (m : Memory) (base : Nat) {bs : List Byte} {j : Nat} (h : j < bs.length) :
    (m.writeBytes base bs).read (base + j) = bs[j] := by
  rw [Memory.read_writeBytes, if_pos (by omega), Nat.add_sub_cancel_left, List.getD_eq_getElem]

/-- Settles O20: an image that fits is written as it stands from 0x200 on. -/
theorem loadCopiesTheImage : Obligations.LoadCopiesTheImage := by
  unfold Obligations.LoadCopiesTheImage
  intro s image
  refine ⟨fun hfits => ?fits, fun hlong => if_pos hlong⟩
  case fits =>
    exact ⟨_, if_neg (Nat.not_lt_of_ge hfits), fun j hj => Memory.read_writeBytes_getElem s.mem 0x200 hj,
      writeBytes_changes s 0x200 image⟩

/-! ### The lifecycle -/

/-- Before the first Load and the first Cycle (R152, R153). -/
inductive Session.Fresh : Session → Prop
  | off : Fresh .off
  | initialized (s : State) : Fresh (.initialized s)

theorem Session.between_fresh {f : State → State} {c d : Session} (h : c.between f = .next d) (hd : d.Fresh) :
    c.Fresh := by
  cases c with
  | off => exact .off
  | initialized s => exact .initialized s
  | loaded | running => cases h; cases hd

/-- An operation that leaves the session fresh found it so, and is neither a Load nor a Cycle. -/
theorem EnvOp.fresh_of_apply {op : EnvOp} {c d : Session} (h : op.apply c = .next d) (hd : d.Fresh) :
    c.Fresh ∧ op ≠ .cycle ∧ ∀ image, op ≠ .load image := by
  cases op with
  | init =>
    obtain ⟨rfl, -⟩ := Session.initCore_next h
    exact ⟨.off, nofun, nofun⟩
  | load image =>
    obtain ⟨s, t, -, -, rfl⟩ := Session.load_next h
    cases hd
  | cycle =>
    obtain ⟨s, t, -, -, rfl⟩ := Session.cycle_next h
    cases hd
  | setKeys | tick | readState => exact ⟨Session.between_fresh h hd, nofun, nofun⟩

/-- A run that ends fresh has no Load and no Cycle. -/
theorem runEnv_fresh {ops : List EnvOp} {c d : Session} (h : runEnv ops c = .next d) (hd : d.Fresh) :
    c.Fresh ∧ .cycle ∉ ops ∧ ∀ image, .load image ∉ ops := by
  induction ops generalizing c with
  | nil => exact ⟨Host.Outcome.next.inj h ▸ hd, List.not_mem_nil, fun _ => List.not_mem_nil⟩
  | cons op ops ih =>
    obtain ⟨e, hop, hops⟩ := runEnv_cons_next h
    obtain ⟨he, hcycle, hload⟩ := ih hops
    obtain ⟨hc, hopCycle, hopLoad⟩ := EnvOp.fresh_of_apply hop he
    exact ⟨hc, List.not_mem_cons_of_ne_of_not_mem hopCycle.symm hcycle,
      fun image => List.not_mem_cons_of_ne_of_not_mem (hopLoad image).symm (hload image)⟩

/-- Once there is a core state there always is one. -/
theorem EnvOp.apply_ne_off {op : EnvOp} {c d : Session} (h : op.apply c = .next d) : d ≠ .off := by
  rintro rfl
  obtain ⟨-, hcycle, hload⟩ := EnvOp.fresh_of_apply h .off
  cases op with
  | init => exact nomatch (Session.initCore_next h).2
  | load image => exact hload image rfl
  | cycle => exact hcycle rfl
  | setKeys | tick | readState =>
    obtain ⟨_, -, hstate⟩ := Session.between_next h
    cases hstate

/-- Initialize does not go through a second time (R150, R154). -/
theorem init_not_mem_of_runEnv {ops : List EnvOp} {c d : Session} (hc : c ≠ .off) (h : runEnv ops c = .next d) :
    .init ∉ ops := by
  induction ops generalizing c with
  | nil => exact List.not_mem_nil
  | cons op ops ih =>
    obtain ⟨e, hop, hops⟩ := runEnv_cons_next h
    refine List.not_mem_cons_of_ne_of_not_mem ?_ (ih (EnvOp.apply_ne_off hop) hops)
    rintro rfl
    exact hc (Session.initCore_next hop).1

/-- The first operation of a run is Initialize: no other has a core state to act on (R150). -/
theorem EnvOp.eq_init_of_apply_off {op : EnvOp} {d : Session} (h : op.apply .off = .next d) : op = .init := by
  cases op with
  | init => rfl
  | load | cycle | setKeys | tick | readState => cases h

theorem runEnv_append_next {before after : List EnvOp} {c e : Session} (h : runEnv (before ++ after) c = .next e) :
    ∃ d, runEnv before c = .next d ∧ runEnv after d = .next e := by
  induction before generalizing c with
  | nil => exact ⟨c, rfl, h⟩
  | cons op before ih =>
    obtain ⟨d, hop, hops⟩ := runEnv_cons_next h
    obtain ⟨d', hbefore, hafter⟩ := ih hops
    exact ⟨d', by rw [runEnv, hop]; exact hbefore, hafter⟩

/-- Settles O21: only Initialize acts before it and it acts only then; a Load acts on a fresh session, which no Load
and no Cycle leads to. -/
theorem lifecycleIsInOrder : Obligations.LifecycleIsInOrder := by
  unfold Obligations.LifecycleIsInOrder
  rintro (_ | ⟨op, rest⟩) c h
  · exact .inl rfl
  obtain ⟨d, hop, hrest⟩ := runEnv_cons_next h
  obtain rfl := EnvOp.eq_init_of_apply_off hop
  refine .inr ⟨rest, rfl, init_not_mem_of_runEnv (EnvOp.apply_ne_off hop) hrest, ?_⟩
  rintro before image after rfl
  obtain ⟨e, hbefore, hload⟩ := runEnv_append_next hrest
  obtain ⟨_, hload, -⟩ := runEnv_cons_next hload
  obtain ⟨s, _, rfl, -, -⟩ := Session.load_next hload
  exact (runEnv_fresh hbefore (.initialized s)).2

end Sys2Proof.Machine
end

section
/-! Access to memory, and that the parts of a state are all of it (20_memory.md R38, R39, 10_state.md R15). -/

namespace Sys2Proof.Machine

/-! ### One byte -/

theorem State.memRead_of_le (s : State) {addr : Nat} (h : addr ≤ 0xFFF) : s.memRead addr = some (s.mem.read addr) :=
  if_neg (Nat.not_lt_of_ge h)

theorem write_changes (s : State) (addr : Nat) (b : Byte) :
    ChangesOnly s { s with mem := s.mem.write addr b } (fun p => p = .mem addr) := by
  intro p hp
  cases p with
  | mem a => exact (Memory.read_write s.mem addr b a).trans (if_neg fun e => hp (congrArg Part.mem e))
  | _ => rfl

/-- Settles O22: the check of the address decides, and a write is seen at its address alone. -/
theorem memoryPrimitives : Obligations.MemoryPrimitives := by
  unfold Obligations.MemoryPrimitives
  intro s addr b
  refine ⟨fun hover => ⟨if_pos hover, if_pos hover⟩, fun hfits => ⟨s.memRead_of_le hfits, ?write⟩⟩
  case write =>
    refine ⟨_, if_neg (Nat.not_lt_of_ge hfits), ?_, write_changes s addr b⟩
    rw [State.memRead_of_le _ hfits, Memory.read_write, if_pos rfl]

/-! ### Blocks through I -/

/-- A block in range is read whole. -/
theorem State.exists_readBlock {s : State} {len : Nat} (h : len = 0 ∨ s.i.toNat + (len - 1) ≤ 0xFFF) :
    ∃ out, s.readBlock len = some out :=
  ⟨_, if_pos ((blockInRange_iff _ _).mpr h)⟩

/-- A block in range is written whole. -/
theorem State.exists_writeBlock {s : State} {bs : List Byte}
    (h : bs.length = 0 ∨ s.i.toNat + (bs.length - 1) ≤ 0xFFF) : ∃ t, s.writeBlock bs = some t :=
  ⟨_, if_pos ((blockInRange_iff _ _).mpr h)⟩

/-- Settles O23: the check of the highest address decides; in range, every byte of the block is in range too. -/
theorem blocksAreCheckedWhole : Obligations.BlocksAreCheckedWhole := by
  unfold Obligations.BlocksAreCheckedWhole
  intro s len bs
  refine ⟨fun hpos hover => (s.readBlock_none len).mpr ⟨hpos, hover⟩, fun hfits => ?read,
    fun hpos hover => (s.writeBlock_none bs).mpr ⟨hpos, hover⟩, fun hfits => ?write⟩
  case read =>
    obtain ⟨out, hread⟩ := State.exists_readBlock hfits
    have hlen := State.readBlock_length hread
    refine ⟨out, hread, hlen, fun k hk => ?_⟩
    rw [State.memRead_of_le s (by omega), ← State.readBlock_getD hread hk 0#8,
      List.getD_eq_getElem _ _ (hlen ▸ hk), List.getElem?_eq_getElem]
  case write =>
    obtain ⟨t, hwrite⟩ := State.exists_writeBlock hfits
    refine ⟨t, hwrite, fun k hk => ?_, State.writeBlock_changes hwrite⟩
    rw [State.memRead_of_le t (by omega), State.writeBlock_read hwrite k hk, List.getD_eq_getElem _ _ hk,
      List.getElem?_eq_getElem]

/-! ### What a frame says of a whole field -/

section
variable {s t : State} {touched : Part → Prop} (h : ChangesOnly s t touched)
include h

theorem ChangesOnly.v_eq (hp : ∀ x, ¬ touched (.v x)) : t.v = s.v :=
  Vector.ext fun x hx => h (.v ⟨x, hx⟩) (hp _)

theorem ChangesOnly.stack_eq (hp : ∀ j, ¬ touched (.stack j)) : t.stack = s.stack :=
  Vector.ext fun j hj => h (.stack ⟨j, hj⟩) (hp _)

theorem ChangesOnly.disp_eq (hp : ∀ r c, ¬ touched (.cell r c)) : t.disp = s.disp :=
  Display.ext_of_cell fun r c => h (.cell r c) (hp r c)

theorem ChangesOnly.key_eq (hp : ∀ k, ¬ touched (.key k)) : t.key = s.key :=
  Vector.ext fun k hk => h (.key ⟨k, hk⟩) (hp _)

end

/-- Settles O24: registers, stack, latches and display are equal cell by cell, canonical memories that read alike are
equal, and every other field is a part of its own. -/
theorem partsDetermineTheState : Obligations.PartsDetermineTheState := by
  unfold Obligations.PartsDetermineTheState
  intro s t hs ht h
  have hmem : t.mem = s.mem := Memory.ext_of_read ht hs fun a => h (.mem a) id
  have hv := h.v_eq fun _ => id
  have hstack := h.stack_eq fun _ => id
  have hdisp := h.disp_eq fun _ _ => id
  have hkey := h.key_eq fun _ => id
  obtain ⟨⟩ := s
  obtain ⟨⟩ := t
  exact (State.mk.injEq ..).mpr ⟨hv, h .i id, h .pc id, h .sp id, hstack, h .dt id, h .st id, hdisp, hkey, hmem,
    h .halted id, h .faultCode id, h .faultAddr id, h .reports id, h .draws id⟩

end Sys2Proof.Machine
end

section
/-! Instructions one after another: what a later one undoes, brings back or sees of an earlier one. -/

namespace Sys2Proof.Machine

/-! ### CALL and RET (41_control_flow.md R83, R84) -/

/-- RET after CALL answers the state before the CALL with pc in the slot that was pushed, wherever pc was between. -/
theorem exec_ret_after_call {s t : State} {nnn : Addr} (target : Word) (hroom : s.sp.val < 16)
    (h : exec (.call nnn) s = .next t) :
    exec .ret (t.setPc target) = .next { s with stack := s.stack.set s.sp.val s.pc } := by
  obtain rfl := next_unique (execCall_of_room nnn hroom) h
  rw [exec, execRet_of_some (by exact Nat.succ_ne_zero s.sp.val)]
  simp [State.setPc]

/-- A write of one slot of the stack touches that slot. -/
theorem setStack_changes (s : State) {k : Nat} (hk : k < 16) (a : Word) :
    ChangesOnly s { s with stack := s.stack.set k a } (fun p => ∃ j : Fin 16, j.val = k ∧ p = .stack j) := by
  intro p hp
  cases p with
  | stack j => exact Vector.getElem_set_ne hk j.isLt fun e => hp ⟨j, e.symm, rfl⟩
  | _ => rfl

/-- Settles O29: all that is left of the CALL is the pushed slot. -/
theorem retUndoesCall : Obligations.RetUndoesCall := by
  unfold Obligations.RetUndoesCall
  intro s t nnn target hroom h
  exact ⟨_, exec_ret_after_call target hroom h, rfl, rfl, setStack_changes s hroom s.pc⟩

/-! ### Adding to a register (42_alu.md R93) -/

theorem State.setV_setV (s : State) (x : Reg) (a b : Byte) : (s.setV x a).setV x b = s.setV x b := by
  simp [State.setV]

theorem State.setV_getV_self (s : State) (x : Reg) : s.setV x (s.getV x) = s := by
  simp [State.setV, State.getV]

/-- Settles O34: the two immediates sum to 256, so the second write puts back the first value of Vx. -/
theorem addImmediateClosure : Obligations.AddImmediateClosure := by
  unfold Obligations.AddImmediateClosure
  intro s x kk kk' hkk
  have hzero : kk + kk' = 0#8 := by
    apply BitVec.eq_of_toNat_eq
    rw [BitVec.toNat_add, hkk, BitVec.toNat_ofNat]
    omega
  refine ⟨_, _, rfl, rfl, ?_⟩
  rw [State.setV_getV_same, State.setV_setV, BitVec.add_assoc, hzero, BitVec.add_zero, State.setV_getV_self]

/-! ### Storing and loading registers (43_index_memory.md R109, R110) -/

section
variable {s t : State} {x : Reg} (hfits : s.i.toNat + x.val ≤ 0xFFF) (h : exec (.storeRegs x) s = .next t)
include hfits h

/-- A store in range leaves register k at I + k. -/
theorem read_of_storeRegs {k : Reg} (hk : k ≤ x) : t.mem.read (s.i.toNat + k.val) = s.getV k := by
  obtain ⟨-, hstore, -⟩ := storeRegistersFillsTheBlock s x (s.pc - 2#16) (BitVec.sub_add_cancel _ _).symm
  obtain ⟨u, hu, hread, -⟩ := hstore hfits
  obtain rfl := next_unique hu h
  exact hread k hk

/-- A store in range touches memory alone. -/
theorem changes_of_storeRegs : ChangesOnly s t (fun p => ∃ a, p = .mem a) := by
  obtain ⟨-, hstore, -⟩ := storeRegistersFillsTheBlock s x (s.pc - 2#16) (BitVec.sub_add_cancel _ _).symm
  obtain ⟨u, hu, -, hframe⟩ := hstore hfits
  obtain rfl := next_unique hu h
  exact hframe.weaken fun _ ⟨k, _, hp⟩ => ⟨_, hp⟩

end

/-- A load in range gives register k the byte at I + k. -/
theorem getV_of_loadRegs {s t : State} {x k : Reg} (hfits : s.i.toNat + x.val ≤ 0xFFF)
    (h : exec (.loadRegs x) s = .next t) (hk : k ≤ x) : t.getV k = s.mem.read (s.i.toNat + k.val) := by
  obtain ⟨-, hload, -⟩ := loadRegistersReadsTheBlock s x (s.pc - 2#16) (BitVec.sub_add_cancel _ _).symm
  obtain ⟨u, hu, hread, -⟩ := hload hfits
  obtain rfl := next_unique hu h
  exact hread k hk

/-- Settles O44: the load reads at I + k what the store left there. -/
theorem loadBringsBackWhatStorePut : Obligations.LoadBringsBackWhatStorePut := by
  unfold Obligations.LoadBringsBackWhatStorePut
  intro s t u w x hfits hstore hi hmem hload k hk
  have hti : t.i = s.i := changes_of_storeRegs hfits hstore .i nofun
  have hui : u.i = s.i := hi.trans hti
  calc w.getV k = u.mem.read (u.i.toNat + k.val) := getV_of_loadRegs (hui ▸ hfits) hload hk
    _ = t.mem.read (s.i.toNat + k.val) := by rw [hmem, hui]
    _ = s.getV k := read_of_storeRegs hfits hstore hk

/-- Settles O45: the two bytes at pc are V0 and V1, which the store left at I and I + 1. -/
theorem storedCodeIsFetchedNext : Obligations.StoredCodeIsFetchedNext := by
  unfold Obligations.StoredCodeIsFetchedNext
  intro s t x hx hi hfits h
  have hpc : t.pc = s.pc := changes_of_storeRegs hfits h .pc nofun
  have hhigh := read_of_storeRegs hfits h (k := 0) (Fin.zero_le x)
  have hlow := read_of_storeRegs hfits h (k := 1) hx
  rw [hi] at hhigh hlow
  rw [fetchWord_toNat, hpc]
  exact congrArg₂ (·.toNat * 256 + ·.toNat) hhigh hlow

/-! ### Waiting for a key (45_keys_timers.md R121, 70_reset_and_hazards.md R158) -/

theorem run_succ_of_step {s t : State} (n : Nat) (h : step s = .next t) :
    Host.Core.run core (n + 1) s = Host.Core.run core n t := by
  simp only [Host.Core.run]
  rw [show core.step s = .next t from h]

/-- Settles O52, by induction on the cycles: LD Vx, K takes back the fetch advance, which is all the cycle did. -/
theorem keyWaitSpinsUntilAKey : Obligations.KeyWaitSpinsUntilAKey := by
  unfold Obligations.KeyWaitSpinsUntilAKey
  intro n s x hfetch hword hnone
  have hstep : step s = .next s := by
    have hback : s.fetchAdvance.setPc (s.pc + 2#16 - 2#16) = s := by rw [BitVec.add_sub_cancel]; rfl
    rw [step_of_decoded hfetch hword]
    exact (execLdVxK_of_none (s := s.fetchAdvance) x hnone).trans (congrArg _ hback)
  induction n with
  | zero => rfl
  | succ n ih => rw [run_succ_of_step n hstep, ih]

/-! ### The delay timer (60_exceptions.md R140) -/

theorem State.toNat_iterate_tick_dt (n : Nat) (s : State) : (State.tick^[n] s).dt.toNat = s.dt.toNat - n := by
  induction n generalizing s with
  | zero => rfl
  | succ n ih => rw [Function.iterate_succ_apply, ih, State.toNat_tick_dt, Nat.sub_sub, Nat.add_comm]

/-- Settles O53: Vy is the delay timer after the n ticks. -/
theorem delayTimerReadBackLosesTheTicks : Obligations.DelayTimerReadBackLosesTheTicks := by
  unfold Obligations.DelayTimerReadBackLosesTheTicks
  intro n s x y
  refine ⟨_, _, rfl, rfl, ?_⟩
  rw [State.setV_getV_same, State.toNat_iterate_tick_dt, State.setDt_dt]

end Sys2Proof.Machine
end

section
/-! RND, the ignored fields, the fault codes, and that every cycle of a running core completes. -/

namespace Sys2Proof.Machine

/-- A masked byte has only bits of the mask. -/
theorem getLsbD_and_of_mask {b kk : Byte} {j : Nat} (h : kk.getLsbD j = false) : (b &&& kk).getLsbD j = false := by
  rw [BitVec.getLsbD_and, h, Bool.and_false]

theorem rnd_changes (s : State) (x : Reg) (b : Byte) :
    ChangesOnly s (s.consumeDraw.setV x b) (fun p => p = .v x ∨ p = .draws) :=
  ((consumeDraw_changes s).weaken fun _ => .inr).trans ((setV_changes _ x b).weaken fun _ => .inl)

/-- Settles O39: RND consumes one draw and writes Vx. -/
theorem rndMasksADraw : Obligations.RndMasksADraw := by
  unfold Obligations.RndMasksADraw
  intro s x kk
  have hv := State.setV_getV_same s.consumeDraw x (s.drawnByte &&& kk)
  refine ⟨decodeWord_ofNat rfl (toNat_encXKK 0xC#4 x kk), _, rfl, hv, fun j hj => ?_, rfl, rnd_changes s x _⟩
  rw [hv]
  exact getLsbD_and_of_mask hj

/-- Settles O6: no meaning of the three reads the field. -/
theorem ignoredFieldsDoNotMatter : Obligations.IgnoredFieldsDoNotMatter := by
  unfold Obligations.IgnoredFieldsDoNotMatter
  intro s x y y' nnn nnn'
  exact ⟨rfl, rfl, rfl⟩

/-- Settles O54, by the definition of the numbering. -/
theorem faultCodesHaveTheListedNumbers : Obligations.FaultCodesHaveTheListedNumbers :=
  ⟨rfl, rfl, rfl, rfl, rfl⟩

/-- Settles O10: the halted check comes first. -/
theorem haltedCoreTakesNoStep : Obligations.HaltedCoreTakesNoStep := by
  unfold Obligations.HaltedCoreTakesNoStep
  intro s h
  exact step_of_halted h

/-- Settles O11: every instruction completes, and a step is PC_OVERRUN, an instruction or a report. -/
theorem everyCycleCompletes : Obligations.EveryCycleCompletes := by
  unfold Obligations.EveryCycleCompletes
  have hexec : ∀ (i : Instr) (s : State), ∃ t, exec i s = .next t := fun i s =>
    have ⟨t, h, _⟩ := exec_completes i s
    ⟨t, h⟩
  refine ⟨hexec, fun s hrun => ?_⟩
  rcases Nat.lt_or_ge 4094 s.pc.toNat with hover | hfetch
  · exact ⟨_, step_of_overrun hrun hover⟩
  · cases hi : decodeWord s.fetchWord with
    | none => exact ⟨_, step_of_unknown ⟨hrun, hfetch⟩ hi⟩
    | some i => rw [step_of_decoded ⟨hrun, hfetch⟩ hi]; exact hexec i _

end Sys2Proof.Machine
end

section
/-! Which instructions fault, and which parts of the state each instruction writes (60_exceptions.md R126 to R131,
10_state.md R16 to R33). -/

namespace Sys2Proof.Machine

/-! ### The causes of a fatal fault -/

/-- In s the instruction has a cause of the fatal fault with this code (R128 to R131). -/
inductive FaultCause (s : State) : Instr → FaultCode → Prop
  | call (nnn : Addr) (hfull : s.sp.val = 16) : FaultCause s (.call nnn) .stackOverflow
  | ret (hempty : s.sp.val = 0) : FaultCause s .ret .stackUnderflow
  | drw (x y : Reg) {n : Fin 16} (hpos : n.val > 0) (hover : s.i.toNat + (n.val - 1) > 0xFFF) :
      FaultCause s (.drw x y n) .memRange
  | ldB (x : Reg) (hover : s.i.toNat + 2 > 0xFFF) : FaultCause s (.ldB x) .memRange
  | storeRegs {x : Reg} (hover : s.i.toNat + x.val > 0xFFF) : FaultCause s (.storeRegs x) .memRange
  | loadRegs {x : Reg} (hover : s.i.toNat + x.val > 0xFFF) : FaultCause s (.loadRegs x) .memRange
  | skp {x : Reg} (hnokey : (s.getV x).toNat > 0xF) : FaultCause s (.skp x) .keyRange
  | sknp {x : Reg} (hnokey : (s.getV x).toNat > 0xF) : FaultCause s (.sknp x) .keyRange

/-- An instruction with a cause raises its fault at the fetch address, and does nothing else. -/
theorem exec_of_faultCause {s : State} {i : Instr} {code : FaultCode} (h : FaultCause s i code) :
    exec i s = .next (s.raiseFatal code s.fetchAddr) := by
  cases h with
  | call nnn hfull => exact execCall_of_full nnn hfull
  | ret hempty => exact execRet_of_empty hempty
  | drw x y hpos hover => exact exec_drw_of_overrun x y hpos hover
  | ldB x hover => exact (execLdB_cases x s).resolve_left (fun h => absurd h.1 (Nat.not_le_of_gt hover)) |>.2
  | storeRegs hover => exact (execStoreRegs_cases _ s).resolve_left (fun h => absurd h.1 (Nat.not_le_of_gt hover)) |>.2
  | loadRegs hover => exact (execLoadRegs_cases _ s).resolve_left (fun h => absurd h.1 (Nat.not_le_of_gt hover)) |>.2
  | skp hnokey => exact execSkp_of_no_key hnokey
  | sknp hnokey => exact execSknp_of_no_key hnokey

/-- The parts of the state that an instruction which takes no fault may write (10_state.md R16 to R27, R33). -/
def MayWrite (i : Instr) (p : Part) : Prop :=
  match i with
  | .sys _ => False
  | .cls => ∃ r c, p = .cell r c
  | .call _ => p = .pc ∨ p = .sp ∨ ∃ j, p = .stack j
  | .ret => p = .pc ∨ p = .sp
  | .jp _ | .jpV0 _ | .seImm _ _ | .sneImm _ _ | .seReg _ _ | .sneReg _ _ | .skp _ | .sknp _ => p = .pc
  | .ldImm x _ | .addImm x _ | .ldReg x _ | .orReg x _ | .andReg x _ | .xorReg x _ | .ldVxDt x => p = .v x
  | .addReg x _ | .sub x _ | .shr x _ | .subn x _ | .shl x _ => p = .v x ∨ p = .v VF
  | .rnd x _ => p = .v x ∨ p = .draws
  | .drw _ _ _ => p = .v VF ∨ ∃ r c, p = .cell r c
  | .ldVxK x => p = .v x ∨ p = .pc
  | .ldDtVx _ => p = .dt
  | .ldStVx _ => p = .st
  | .ldI _ | .addI _ | .ldF _ => p = .i
  | .ldB _ | .storeRegs _ => ∃ a, p = .mem a
  | .loadRegs x => ∃ z ≤ x, p = .v z

/-- An instruction without a cause of a fault changes only what it may write. -/
theorem exec_changes_of_no_cause {i : Instr} {s t : State} (hno : ∀ code, ¬ FaultCause s i code)
    (h : exec i s = .next t) : ChangesOnly s t (MayWrite i) := by
  have hnext : ∀ {u}, exec i s = .next u → ChangesOnly s u (MayWrite i) → ChangesOnly s t (MayWrite i) :=
    fun hu hframe => next_unique hu h ▸ hframe
  cases i with
  | sys => exact hnext rfl (ChangesOnly.refl s _)
  | cls => exact hnext rfl (setDisp_changes fun r c hcell => absurd ⟨r, c, rfl⟩ hcell)
  | jp | jpV0 => exact hnext rfl (setPc_changes s _)
  | seImm | sneImm | seReg | sneReg => exact hnext rfl (skipIf_changes s _)
  | ldImm | addImm | ldReg | orReg | andReg | xorReg | ldVxDt => exact hnext rfl (setV_changes s _ _)
  | addReg | sub | shr | subn | shl => exact hnext rfl (setResultFlag_changes s _ _ _)
  | rnd => exact hnext rfl (rnd_changes s _ _)
  | ldDtVx => exact hnext rfl (setDt_changes s _)
  | ldStVx => exact hnext rfl (setSt_changes s _)
  | ldI | addI | ldF => exact hnext rfl (setI_changes s _)
  | call nnn =>
    rcases Nat.lt_or_eq_of_le (Nat.le_of_lt_succ s.sp.isLt) with hroom | hfull
    · exact (call_changes hroom h).weaken fun _ => Or.imp_right (Or.imp_right fun hp => ⟨_, hp⟩)
    · exact absurd (.call nnn hfull) (hno _)
  | ret => exact ret_changes (fun hempty => hno _ (.ret hempty)) h
  | skp x =>
    rcases Nat.lt_or_ge (s.getV x).toNat 16 with hkey | hnokey
    · exact hnext (execSkp_of_key hkey) (skipIf_changes s _)
    · exact absurd (.skp hnokey) (hno _)
  | sknp x =>
    rcases Nat.lt_or_ge (s.getV x).toNat 16 with hkey | hnokey
    · exact hnext (execSknp_of_key hkey) (skipIf_changes s _)
    · exact absurd (.sknp hnokey) (hno _)
  | ldVxK x =>
    rcases execLdVxK_cases x s with ⟨-, hexec⟩ | ⟨k, -, hexec⟩
    · exact hnext hexec ((setPc_changes s _).weaken fun _ => .inr)
    · exact hnext hexec ((setV_changes s x _).weaken fun _ => .inl)
  | drw x y n =>
    rcases execDrw_cases x y n s with ⟨-, _, -, hexec⟩ | ⟨hpos, hover, -⟩
    · refine hnext hexec ((setDisp_changes fun r c hcell => ?_).trans ((setV_changes _ VF _).weaken fun _ => .inl))
      exact absurd (.inr ⟨r, c, rfl⟩) hcell
    · exact absurd (.drw x y hpos hover) (hno _)
  | ldB x =>
    rcases execLdB_cases x s with ⟨-, u, hwrite, hexec⟩ | ⟨hover, -⟩
    · exact hnext hexec ((State.writeBlock_changes hwrite).weaken fun _ ⟨k, _, hp⟩ => ⟨_, hp⟩)
    · exact absurd (.ldB x hover) (hno _)
  | storeRegs x =>
    rcases execStoreRegs_cases x s with ⟨-, u, hwrite, hexec⟩ | ⟨hover, -⟩
    · exact hnext hexec ((State.writeBlock_changes hwrite).weaken fun _ ⟨k, _, hp⟩ => ⟨_, hp⟩)
    · exact absurd (.storeRegs hover) (hno _)
  | loadRegs x =>
    rcases execLoadRegs_cases x s with ⟨-, bs, hread, hexec⟩ | ⟨hover, -⟩
    · have hlen := State.readBlock_length hread
      refine hnext hexec ((setRegs_changes s bs).weaken ?_)
      rintro p ⟨k, hk, rfl⟩
      exact ⟨k, Fin.le_def.mpr (by omega), rfl⟩
    · exact absurd (.loadRegs hover) (hno _)

theorem not_mayWrite_status (i : Instr) {p : Part} (hp : p.isStatus) : ¬ MayWrite i p := by
  rcases hp with rfl | rfl | rfl <;> cases i <;> simp [MayWrite]

/-- An instruction halts a running core exactly where it has a cause. -/
theorem exec_halts_iff_faultCause {i : Instr} {s t : State} (hrun : s.halted = false) (h : exec i s = .next t) :
    t.halted = true ↔ ∃ code, FaultCause s i code := by
  constructor
  · intro hhalt
    by_contra hno
    have hkept : t.halted = s.halted :=
      exec_changes_of_no_cause (not_exists.mp hno) h .halted (not_mayWrite_status i (.inl rfl))
    rw [hkept, hrun] at hhalt
    cases hhalt
  · rintro ⟨code, hcause⟩
    obtain rfl := next_unique (exec_of_faultCause hcause) h
    rfl

/-- Settles O13: the causes are the listed ones, and each raises the fault with its own code. -/
theorem faultsHaveTheListedCauses : Obligations.FaultsHaveTheListedCauses := by
  unfold Obligations.FaultsHaveTheListedCauses
  intro i s t hrun h
  have hcode : ∀ {code}, FaultCause s i code → t.faultCode = some code := fun hcause => by
    obtain rfl := next_unique (exec_of_faultCause hcause) h
    rfl
  refine ⟨(exec_halts_iff_faultCause hrun h).trans ⟨?listed, ?causes⟩, ?call, ?ret, ?drw, ?ldB, ?block, ?key⟩
  case listed =>
    rintro ⟨code, hcause⟩
    cases hcause with
    | call nnn hfull => exact .inl ⟨⟨nnn, rfl⟩, hfull⟩
    | ret hempty => exact .inr (.inl ⟨rfl, hempty⟩)
    | drw x y hpos hover => exact .inr (.inr (.inl ⟨x, y, _, rfl, hpos, hover⟩))
    | ldB x hover => exact .inr (.inr (.inr (.inl ⟨⟨x, rfl⟩, hover⟩)))
    | storeRegs hover => exact .inr (.inr (.inr (.inr (.inl ⟨_, .inl rfl, hover⟩))))
    | loadRegs hover => exact .inr (.inr (.inr (.inr (.inl ⟨_, .inr rfl, hover⟩))))
    | skp hnokey => exact .inr (.inr (.inr (.inr (.inr ⟨_, .inl rfl, hnokey⟩))))
    | sknp hnokey => exact .inr (.inr (.inr (.inr (.inr ⟨_, .inr rfl, hnokey⟩))))
  case causes =>
    rintro (⟨⟨nnn, rfl⟩, hfull⟩ | ⟨rfl, hempty⟩ | ⟨x, y, n, rfl, hpos, hover⟩ | ⟨⟨x, rfl⟩, hover⟩ |
      ⟨x, rfl | rfl, hover⟩ | ⟨x, rfl | rfl, hnokey⟩)
    exacts [⟨_, .call nnn hfull⟩, ⟨_, .ret hempty⟩, ⟨_, .drw x y hpos hover⟩, ⟨_, .ldB x hover⟩,
      ⟨_, .storeRegs hover⟩, ⟨_, .loadRegs hover⟩, ⟨_, .skp hnokey⟩, ⟨_, .sknp hnokey⟩]
  case call => rintro ⟨nnn, rfl⟩ hfull; exact hcode (.call nnn hfull)
  case ret => rintro rfl hempty; exact hcode (.ret hempty)
  case drw => rintro x y n rfl hpos hover; exact hcode (.drw x y hpos hover)
  case ldB => rintro ⟨x, rfl⟩ hover; exact hcode (.ldB x hover)
  case block => rintro x (rfl | rfl) hover; exacts [hcode (.storeRegs hover), hcode (.loadRegs hover)]
  case key => rintro x (rfl | rfl) hnokey; exacts [hcode (.skp hnokey), hcode (.sknp hnokey)]

/-! ### What an instruction changed it may write -/

/-- Every instruction, whether it faults or not, changes only what it may write and the run status. -/
theorem exec_changes {i : Instr} {s t : State} (h : exec i s = .next t) :
    ChangesOnly s t (fun p => MayWrite i p ∨ p.isStatus) := by
  by_cases hcause : ∃ code, FaultCause s i code
  · obtain ⟨code, hcause⟩ := hcause
    obtain rfl := next_unique (exec_of_faultCause hcause) h
    obtain ⟨-, -, -, hframe⟩ := raiseFatal_taken s code s.fetchAddr
    exact hframe.weaken fun _ => .inr
  · exact (exec_changes_of_no_cause (not_exists.mp hcause) h).weaken fun _ => .inl

/-- A part that an instruction changed, other than the run status, is one it may write. -/
theorem mayWrite_of_ne {i : Instr} {s t : State} (h : exec i s = .next t) (p : Part) (hne : ¬ p.agrees s t)
    (hp : ¬ p.isStatus := by simp [Part.isStatus]) : MayWrite i p :=
  (not_imp_comm.mp (exec_changes h p) hne).resolve_right hp

/-- An instruction that changed the run status has a cause of a fault. -/
theorem faultCause_of_ne {i : Instr} {s t : State} (h : exec i s = .next t) (p : Part) (hp : p.isStatus)
    (hne : ¬ p.agrees s t) : ∃ code, FaultCause s i code := by
  by_contra hno
  exact hne (exec_changes_of_no_cause (not_exists.mp hno) h p (not_mayWrite_status i hp))

/-! ### The writers of each kind of state, read off `MayWrite` -/

theorem call_of_mayWrite_stack {i : Instr} {j : Fin 16} (h : MayWrite i (.stack j)) : ∃ nnn, i = .call nnn := by
  cases i <;> simp [MayWrite] at h ⊢

theorem eq_of_mayWrite_sp {i : Instr} (h : MayWrite i .sp) : (∃ nnn, i = .call nnn) ∨ i = .ret := by
  cases i <;> simp [MayWrite] at h ⊢

theorem eq_of_mayWrite_mem {i : Instr} {a : Nat} (h : MayWrite i (.mem a)) :
    ∃ x, i = .ldB x ∨ i = .storeRegs x := by
  cases i <;> simp [MayWrite] at h ⊢

theorem eq_of_mayWrite_cell {i : Instr} {r : Fin 32} {c : Fin 64} (h : MayWrite i (.cell r c)) :
    i = .cls ∨ ∃ x y n, i = .drw x y n := by
  cases i <;> simp [MayWrite] at h ⊢

theorem eq_of_mayWrite_i {i : Instr} (h : MayWrite i .i) :
    (∃ nnn, i = .ldI nnn) ∨ ∃ x, i = .addI x ∨ i = .ldF x := by
  cases i <;> simp [MayWrite] at h ⊢

theorem eq_of_mayWrite_dt {i : Instr} (h : MayWrite i .dt) : ∃ x, i = .ldDtVx x := by
  cases i <;> simp [MayWrite] at h ⊢

theorem eq_of_mayWrite_st {i : Instr} (h : MayWrite i .st) : ∃ x, i = .ldStVx x := by
  cases i <;> simp [MayWrite] at h ⊢

theorem eq_of_mayWrite_draws {i : Instr} (h : MayWrite i .draws) : ∃ x kk, i = .rnd x kk := by
  cases i <;> simp [MayWrite] at h ⊢

theorem eq_of_mayWrite_v {i : Instr} {z : Reg} (h : MayWrite i (.v z)) :
    (∃ kk, i = .ldImm z kk ∨ i = .addImm z kk ∨ i = .rnd z kk) ∨
    (∃ y, i = .ldReg z y ∨ i = .orReg z y ∨ i = .andReg z y ∨ i = .xorReg z y) ∨
    i = .ldVxDt z ∨ i = .ldVxK z ∨ (∃ x, z ≤ x ∧ i = .loadRegs x) ∨
    (∃ x y, (z = x ∨ z = VF) ∧
      (i = .addReg x y ∨ i = .sub x y ∨ i = .shr x y ∨ i = .subn x y ∨ i = .shl x y)) ∨
    (z = VF ∧ ∃ x y n, i = .drw x y n) := by
  cases i with
  | loadRegs x =>
    obtain ⟨k, hk, hz⟩ := h
    cases hz
    exact .inr (.inr (.inr (.inr (.inl ⟨x, hk, rfl⟩))))
  | ldImm | addImm | rnd | ldReg | orReg | andReg | xorReg | ldVxDt | ldVxK | addReg | sub | shr | subn | shl | drw =>
    simpa [MayWrite, eq_comm] using h
  | _ => simp [MayWrite] at h

theorem eq_of_mayWrite_pc {i : Instr} (h : MayWrite i .pc) :
    (∃ nnn, i = .jp nnn ∨ i = .call nnn ∨ i = .jpV0 nnn) ∨ i = .ret ∨
    (∃ x kk, i = .seImm x kk ∨ i = .sneImm x kk) ∨ (∃ x y, i = .seReg x y ∨ i = .sneReg x y) ∨
    (∃ x, i = .skp x ∨ i = .sknp x ∨ i = .ldVxK x) := by
  cases i <;> simp [MayWrite] at h ⊢

theorem FaultCause.eq {s : State} {i : Instr} {code : FaultCode} (h : FaultCause s i code) :
    (∃ nnn, i = .call nnn) ∨ i = .ret ∨ (∃ x y n, i = .drw x y n) ∨
    (∃ x, i = .ldB x ∨ i = .storeRegs x ∨ i = .loadRegs x ∨ i = .skp x ∨ i = .sknp x) := by
  cases h <;> simp

theorem not_mayWrite_key (i : Instr) (k : Key) : ¬ MayWrite i (.key k) := by
  cases i <;> simp [MayWrite]

theorem not_mayWrite_reports (i : Instr) : ¬ MayWrite i .reports := by
  cases i <;> simp [MayWrite]

/-! ### Who writes what, and what VF is written by -/

/-- Settles O56: what an instruction changed it may write, or is the run status, which takes a cause of a fault. -/
theorem onlyTheNamedInstructionsWrite : Obligations.OnlyTheNamedInstructionsWrite := by
  unfold Obligations.OnlyTheNamedInstructionsWrite
  intro i s t h
  refine ⟨?key, ?reports, ?stack, fun hne => eq_of_mayWrite_sp (mayWrite_of_ne h .sp hne), ?mem, ?disp,
    fun hne => eq_of_mayWrite_i (mayWrite_of_ne h .i hne),
    fun hne => eq_of_mayWrite_dt (mayWrite_of_ne h .dt hne),
    fun hne => eq_of_mayWrite_st (mayWrite_of_ne h .st hne),
    fun hne => eq_of_mayWrite_draws (mayWrite_of_ne h .draws hne),
    fun z hne => eq_of_mayWrite_v (mayWrite_of_ne h (.v z) hne),
    fun hne => eq_of_mayWrite_pc (mayWrite_of_ne h .pc hne), ?status⟩
  case key =>
    refine Vector.ext fun k hk => by_contra fun hne => not_mayWrite_key i ⟨k, hk⟩ ?_
    exact mayWrite_of_ne h (.key ⟨k, hk⟩) hne
  case reports => exact by_contra fun hne => not_mayWrite_reports i (mayWrite_of_ne h .reports hne)
  case stack =>
    refine not_imp_comm.mp fun hno => Vector.ext fun j hj => by_contra fun hne => hno ?_
    exact call_of_mayWrite_stack (mayWrite_of_ne h (.stack ⟨j, hj⟩) hne)
  case mem => exact fun ⟨a, hne⟩ => eq_of_mayWrite_mem (mayWrite_of_ne h (.mem a) hne)
  case disp =>
    refine not_imp_comm.mp fun hno => Display.ext_of_cell fun r c => by_contra fun hne => hno ?_
    exact eq_of_mayWrite_cell (mayWrite_of_ne h (.cell r c) hne)
  case status =>
    intro hne
    have hcause : ∃ code, FaultCause s i code := by
      rcases hne with hne | hne | hne
      · exact faultCause_of_ne h .halted (.inl rfl) hne
      · exact faultCause_of_ne h .faultCode (.inr (.inl rfl)) hne
      · exact faultCause_of_ne h .faultAddr (.inr (.inr rfl)) hne
    exact hcause.elim fun _ => FaultCause.eq

/-- Settles O57: the writers of Vz at z = F. -/
theorem vfHasTheListedWriters : Obligations.VfHasTheListedWriters := by
  unfold Obligations.VfHasTheListedWriters
  intro i s t h hne
  rcases eq_of_mayWrite_v (mayWrite_of_ne h (.v VF) hne) with
    himm | hreg | hdt | hkey | ⟨x, hx, hload⟩ | ⟨x, y, -, hflag⟩ | ⟨-, hdrw⟩
  · exact .inr (.inr (.inl himm))
  · exact .inr (.inr (.inr (.inl hreg)))
  · exact .inr (.inr (.inr (.inr (.inl hdt))))
  · exact .inr (.inr (.inr (.inr (.inr (.inl hkey)))))
  · obtain rfl : x = VF := Fin.last_le_iff.mp hx
    exact .inr (.inr (.inr (.inr (.inr (.inr hload)))))
  · exact .inl ⟨x, y, hflag⟩
  · exact .inr (.inl hdrw)

end Sys2Proof.Machine
end

section
/-! The devices: what an instruction that does not name one never sees of it (20_memory.md R37, 10_state.md R25,
60_exceptions.md R135). -/

namespace Sys2Proof.Machine

/-! ### Overwriting devices -/

/-- A change to each of the six parts of the state that only some instructions name, or none: the stack and sp, ST, the
display, the latches, the report stream. -/
structure Devices where
  stack : Vector Word 16 → Vector Word 16 := id
  sp : Fin 17 → Fin 17 := id
  st : Byte → Byte := id
  disp : Display → Display := id
  key : Vector Bool 16 → Vector Bool 16 := id
  reports : List Report → List Report := id

/-- The state with its devices changed. -/
def Devices.on (d : Devices) (s : State) : State :=
  { s with stack := d.stack s.stack, sp := d.sp s.sp, st := d.st s.st, disp := d.disp s.disp, key := d.key s.key,
           reports := d.reports s.reports }

/-- The change leaves alone the devices that the instruction names (R37). -/
structure Devices.Spares (d : Devices) (i : Instr) : Prop where
  stack : i = .ret ∨ (∃ nnn, i = .call nnn) → d.stack = id ∧ d.sp = id
  st : (∃ x, i = .ldStVx x) → d.st = id
  disp : i = .cls ∨ (∃ x y n, i = .drw x y n) → d.disp = id
  key : (∃ x, i = .skp x ∨ i = .sknp x ∨ i = .ldVxK x) → d.key = id

/-! ### What each operation sees of the devices -/

theorem Devices.on_skipIf (d : Devices) (s : State) (c : Bool) : (d.on s).skipIf c = d.on (s.skipIf c) := by
  cases c <;> rfl

theorem Devices.on_getV (d : Devices) (s : State) (x : Reg) : (d.on s).getV x = s.getV x := rfl

theorem Devices.on_regsUpTo (d : Devices) (s : State) (x : Reg) : (d.on s).regsUpTo x = s.regsUpTo x := rfl

theorem Devices.on_readBlock (d : Devices) (s : State) (len : Nat) : (d.on s).readBlock len = s.readBlock len := rfl

theorem Devices.on_writeBlock (d : Devices) (s : State) (bs : List Byte) :
    (d.on s).writeBlock bs = (s.writeBlock bs).map d.on := by
  unfold State.writeBlock
  rw [apply_ite (Option.map d.on)]
  rfl

theorem Devices.on_keyAt {d : Devices} (hd : d.key = id) (s : State) (b : Byte) : (d.on s).keyAt b = s.keyAt b := by
  simp [State.keyAt, Devices.on, hd]

theorem Devices.on_firstKey {d : Devices} (hd : d.key = id) (s : State) : (d.on s).firstKey = s.firstKey := by
  simp [State.firstKey, Devices.on, hd]

theorem Devices.on_pushPc {d : Devices} (hstack : d.stack = id) (hsp : d.sp = id) (s : State) :
    (d.on s).pushPc = s.pushPc.map d.on := by
  obtain ⟨⟩ := d
  cases hstack
  cases hsp
  unfold State.pushPc
  rw [apply_dite (Option.map _)]
  rfl

theorem Devices.on_popPc {d : Devices} (hstack : d.stack = id) (hsp : d.sp = id) (s : State) :
    (d.on s).popPc = s.popPc.map d.on := by
  obtain ⟨⟩ := d
  cases hstack
  cases hsp
  unfold State.popPc
  rw [apply_dite (Option.map _)]
  rfl

/-! ### An instruction commutes with a change of the devices it does not name -/

theorem exec_on {d : Devices} {i : Instr} {s t : State} (hd : d.Spares i) (h : exec i s = .next t) :
    exec i (d.on s) = .next (d.on t) := by
  revert h
  cases i with
  | ret =>
    obtain ⟨hstack, hsp⟩ := hd.stack (.inl rfl)
    rw [exec, exec, execRet, execRet, Devices.on_popPc hstack hsp]
    cases s.popPc <;> rintro ⟨⟩ <;> rfl
  | call nnn =>
    obtain ⟨hstack, hsp⟩ := hd.stack (.inr ⟨nnn, rfl⟩)
    rw [exec, exec, execCall, execCall, Devices.on_pushPc hstack hsp]
    cases s.pushPc <;> rintro ⟨⟩ <;> rfl
  | cls =>
    have hdisp := hd.disp (.inl rfl)
    rintro ⟨⟩
    obtain ⟨⟩ := d
    cases hdisp
    rfl
  | drw x y n =>
    have hdisp := hd.disp (.inr ⟨x, y, n, rfl⟩)
    obtain ⟨⟩ := d
    cases hdisp
    rw [exec, exec, execDrw, execDrw, Devices.on_readBlock]
    cases s.readBlock n.val <;> rintro ⟨⟩ <;> rfl
  | skp x =>
    rw [exec, exec, execSkp, execSkp, Devices.on_keyAt (hd.key ⟨x, .inl rfl⟩), Devices.on_getV]
    cases s.keyAt (s.getV x) with
    | none => rintro ⟨⟩; rfl
    | some pressed => rintro ⟨⟩; exact congrArg Host.Outcome.next (d.on_skipIf s _)
  | sknp x =>
    rw [exec, exec, execSknp, execSknp, Devices.on_keyAt (hd.key ⟨x, .inr (.inl rfl)⟩), Devices.on_getV]
    cases s.keyAt (s.getV x) with
    | none => rintro ⟨⟩; rfl
    | some pressed => rintro ⟨⟩; exact congrArg Host.Outcome.next (d.on_skipIf s _)
  | ldVxK x =>
    rw [exec, exec, execLdVxK, execLdVxK, Devices.on_firstKey (hd.key ⟨x, .inr (.inr rfl)⟩)]
    cases s.firstKey <;> rintro ⟨⟩ <;> rfl
  | ldB x =>
    rw [exec, exec, execLdB, execLdB, Devices.on_writeBlock, Devices.on_getV]
    cases s.writeBlock (decimalDigits (s.getV x)) <;> rintro ⟨⟩ <;> rfl
  | storeRegs x =>
    rw [exec, exec, execStoreRegs, execStoreRegs, Devices.on_writeBlock, Devices.on_regsUpTo]
    cases s.writeBlock (s.regsUpTo x) <;> rintro ⟨⟩ <;> rfl
  | loadRegs x =>
    rw [exec, exec, execLoadRegs, execLoadRegs, Devices.on_readBlock]
    cases s.readBlock (x.val + 1) <;> rintro ⟨⟩ <;> rfl
  | seImm | sneImm | seReg | sneReg =>
    rintro ⟨⟩
    exact congrArg Host.Outcome.next (d.on_skipIf s _)
  | ldStVx x =>
    have hst := hd.st ⟨x, rfl⟩
    rintro ⟨⟩
    obtain ⟨⟩ := d
    cases hst
    rfl
  | _ => rintro ⟨⟩; rfl

/-- Settles O55: the change of one device spares every instruction that does not name it. -/
theorem onlyTheNamedInstructionsReachTheDevices : Obligations.OnlyTheNamedInstructionsReachTheDevices := by
  unfold Obligations.OnlyTheNamedInstructionsReachTheDevices
  intro i s t h
  refine ⟨fun hno k => ?key, fun ⟨hret, hcall⟩ k n => ?stack, fun ⟨hcls, hdrw⟩ d => ?disp⟩
  case key =>
    refine exec_on (d := { key := fun _ => k }) ⟨fun _ => ⟨rfl, rfl⟩, fun _ => rfl, fun _ => rfl, ?_⟩ h
    rintro ⟨x, hx⟩
    obtain ⟨hskp, hsknp, hwait⟩ := hno x
    rcases hx with hx | hx | hx <;> contradiction
  case stack =>
    refine exec_on (d := { stack := fun _ => k, sp := fun _ => n }) ⟨?_, fun _ => rfl, fun _ => rfl, fun _ => rfl⟩ h
    exact fun hi => (hi.elim hret fun ⟨nnn, hi⟩ => hcall nnn hi).elim
  case disp =>
    refine exec_on (d := { disp := fun _ => d }) ⟨fun _ => ⟨rfl, rfl⟩, fun _ => rfl, ?_, fun _ => rfl⟩ h
    exact fun hi => (hi.elim hcls fun ⟨x, y, n, hi⟩ => hdrw x y n hi).elim

/-! ### ST and the report stream, over any number of cycles -/

/-- What n + 1 cycles answer is what n cycles answer after the first. -/
theorem run_succ_next {n : Nat} {s t : State} (h : Host.Core.run core (n + 1) s = .next t) :
    ∃ u, step s = .next u ∧ Host.Core.run core n u = .next t := by
  simp only [Host.Core.run] at h
  split at h
  case h_1 u hu => exact ⟨u, hu, h⟩
  all_goals cases h

/-- An instruction run with another ST does the same, but for what ST is after it (R25). -/
theorem exec_with_st {i : Instr} {s t : State} (h : exec i s = .next t) (b : Byte) :
    ∃ c, exec i { s with st := b } = .next { t with st := c } := by
  by_cases hst : ∃ x, i = .ldStVx x
  · obtain ⟨x, rfl⟩ := hst
    cases h
    exact ⟨s.getV x, rfl⟩
  · exact ⟨b, exec_on (d := { st := fun _ => b })
      ⟨fun _ => ⟨rfl, rfl⟩, fun hi => absurd hi hst, fun _ => rfl, fun _ => rfl⟩ h⟩

/-- A cycle run with another ST does the same, but for what ST is after it (R25). -/
theorem step_with_st {s t : State} (h : step s = .next t) (b : Byte) :
    ∃ c, step { s with st := b } = .next { t with st := c } := by
  obtain ⟨hrun, ⟨hover, rfl⟩ | ⟨hfetch, ⟨i, hi, hexec⟩ | ⟨hi, rfl⟩⟩⟩ := step_cases h
  · exact ⟨b, step_of_overrun (s := { s with st := b }) hrun hover⟩
  · obtain ⟨c, hc⟩ := exec_with_st hexec b
    exact ⟨c, (step_of_decoded (s := { s with st := b }) ⟨hrun, hfetch⟩ hi).trans hc⟩
  · exact ⟨b, step_of_unknown (s := { s with st := b }) ⟨hrun, hfetch⟩ hi⟩

/-- Settles O58, by induction on the cycles. -/
theorem soundTimerIsNeverObserved : Obligations.SoundTimerIsNeverObserved := by
  unfold Obligations.SoundTimerIsNeverObserved
  intro n
  induction n with
  | zero =>
    intro s t b h
    cases h
    exact ⟨b, rfl⟩
  | succ n ih =>
    intro s t b h
    obtain ⟨u, hstep, hrun⟩ := run_succ_next h
    obtain ⟨c, hc⟩ := step_with_st hstep b
    rw [run_succ_of_step n hc]
    exact ih u t c hrun

/-- An instruction run after other reports does the same, and adds none (R135). -/
theorem exec_with_reports {i : Instr} {s t : State} (h : exec i s = .next t) (earlier : List Report) :
    exec i { s with reports := earlier } = .next { t with reports := earlier } :=
  exec_on (d := { reports := fun _ => earlier }) ⟨fun _ => ⟨rfl, rfl⟩, fun _ => rfl, fun _ => rfl, fun _ => rfl⟩ h

/-- A cycle run after other reports does the same, and adds the same reports (R135). -/
theorem step_with_reports {s t : State} (h : step s = .next t) :
    ∃ added, t.reports = s.reports ++ added ∧
      ∀ earlier, step { s with reports := earlier } = .next { t with reports := earlier ++ added } := by
  obtain ⟨hrun, ⟨hover, rfl⟩ | ⟨hfetch, ⟨i, hi, hexec⟩ | ⟨hi, rfl⟩⟩⟩ := step_cases h
  · refine ⟨[], (List.append_nil _).symm, fun earlier => ?_⟩
    rw [List.append_nil]
    exact step_of_overrun (s := { s with reports := earlier }) hrun hover
  · obtain ⟨-, hkept, -⟩ := onlyTheNamedInstructionsWrite i _ t hexec
    refine ⟨[], hkept.trans (List.append_nil _).symm, fun earlier => ?_⟩
    rw [List.append_nil]
    exact (step_of_decoded (s := { s with reports := earlier }) ⟨hrun, hfetch⟩ hi).trans
      (exec_with_reports hexec earlier)
  · exact ⟨[⟨s.fetchWord, s.pc⟩], rfl, fun earlier =>
      step_of_unknown (s := { s with reports := earlier }) ⟨hrun, hfetch⟩ hi⟩

/-- Settles O59, by induction on the cycles: what the run adds is what each cycle adds, in order. -/
theorem reportStreamIsOnlyAnOutput : Obligations.ReportStreamIsOnlyAnOutput := by
  unfold Obligations.ReportStreamIsOnlyAnOutput
  intro n
  induction n with
  | zero =>
    intro s t earlier h
    cases h
    exact ⟨[], (List.append_nil _).symm, by rw [List.append_nil]; rfl⟩
  | succ n ih =>
    intro s t earlier h
    obtain ⟨u, hstep, hrun⟩ := run_succ_next h
    obtain ⟨first, hfirst, hsame⟩ := step_with_reports hstep
    obtain ⟨later, hlater, hrest⟩ := ih u t (earlier ++ first) hrun
    refine ⟨first ++ later, by rw [hlater, hfirst, List.append_assoc], ?_⟩
    rw [run_succ_of_step n (hsame earlier), hrest, List.append_assoc]

end Sys2Proof.Machine
end
